-- ==== Sys2Proof/Word.lean ====
section
/-! DEFINITION. The words of the machine: the widths the spec gives its registers, memory cells and instruction
fields (00_scope.md R4, R6), and the type of a register index. -/

namespace Sys2Proof

/-- A byte: a memory cell, a general register, a timer (R4 `REG_BITS`, R16). -/
abbrev Byte := BitVec 8

/-- A 16-bit word: an instruction word, `pc`, `I`, a stack entry (R4 `WORD_BITS`, `PC_BITS`, `I_BITS`, `STACK_ENTRY_BITS`). -/
abbrev Word := BitVec 16

/-- The 12-bit address field `NNN` of an instruction (R6). -/
abbrev Addr12 := BitVec 12

/-- A 4-bit field of an instruction word (R6). -/
abbrev Nibble := BitVec 4

/-- The index of a general register, `V[0]` to `V[15]` (R10). All 16 values of a field are legal (R67). -/
abbrev Reg := Fin 16

/-- A key id, 0x0 to 0xF (R20). -/
abbrev KeyId := Fin 16

end Sys2Proof
end

