-- ==== Sys2Proof/Config.lean ====
section
/-! DEFINITION. What an implementation fixes (00_scope.md R4): the constants of the hardware, the open parameters
`STACK_DEPTH` and `FONT` as plain data, and the one free value of the model, the random byte of a `Cycle` event that
the outside's schedule does not name. -/

namespace Sys2Proof

/-- `MEM_SIZE` (R4): bytes of memory. -/
abbrev memSize : Nat := 4096

/-- The highest address, 0x0FFF (R16, R40). -/
abbrev lastAddr : Nat := 0x0FFF

/-- `ROM_BASE` (R4): load address of the ROM and reset value of `pc`. -/
abbrev romBase : Nat := 0x200

/-- `ROM_MAX` (R4, R241): the longest ROM. -/
abbrev romMax : Nat := 3584

/-- The open parameters of the hardware (R4, 92_eei_decisions.md): a model carries them, and no event changes them. -/
structure Config where
  /-- `STACK_DEPTH` (R14, D5): the most return addresses the call stack holds; `none` means unbounded. -/
  stackDepth : Option Nat
  /-- `FONT` (R17, D21): the 80 bytes loaded at address 0 at construction. -/
  font : Vector Byte 80
deriving DecidableEq, Repr

/-- Glyphs 0 to 3 of the spec's default font (R17). -/
def defaultGlyphs0 : Vector Byte 20 :=
  #v[0xF0, 0x90, 0x90, 0x90, 0xF0,  0x20, 0x60, 0x20, 0x20, 0x70,
     0xF0, 0x10, 0xF0, 0x80, 0xF0,  0xF0, 0x10, 0xF0, 0x10, 0xF0]

/-- Glyphs 4 to 7 of the spec's default font (R17). -/
def defaultGlyphs4 : Vector Byte 20 :=
  #v[0x90, 0x90, 0xF0, 0x10, 0x10,  0xF0, 0x80, 0xF0, 0x10, 0xF0,
     0xF0, 0x80, 0xF0, 0x90, 0xF0,  0xF0, 0x10, 0x20, 0x40, 0x40]

/-- Glyphs 8 to B of the spec's default font (R17). -/
def defaultGlyphs8 : Vector Byte 20 :=
  #v[0xF0, 0x90, 0xF0, 0x90, 0xF0,  0xF0, 0x90, 0xF0, 0x10, 0xF0,
     0xF0, 0x90, 0xF0, 0x90, 0x90,  0xE0, 0x90, 0xE0, 0x90, 0xE0]

/-- Glyphs C to F of the spec's default font (R17). -/
def defaultGlyphsC : Vector Byte 20 :=
  #v[0xF0, 0x80, 0x80, 0x80, 0xF0,  0xE0, 0x90, 0x90, 0x90, 0xE0,
     0xF0, 0x80, 0xF0, 0x80, 0xF0,  0xF0, 0x80, 0xF0, 0x80, 0x80]

/-- The conventional font, the default of `FONT` (R17, D21; the spec marks it general knowledge: log 6). -/
def defaultFont : Vector Byte 80 :=
  (defaultGlyphs0 ++ defaultGlyphs4 ++ defaultGlyphs8 ++ defaultGlyphsC : Vector Byte (20 + 20 + 20 + 20))

/-- The spec's defaults of the open parameters: `STACK_DEPTH = 16` (D5, log 5) and the conventional font (D21, log 6). -/
def Config.default : Config where
  stackDepth := some 16
  font := defaultFont

/-- FREE VALUE (D19, R93; log 4): the byte `r` of the n-th `Cycle(r)` event that the schedule of the state does not
name. It has no body: no proof can see what it is, so a statement holds for every sequence of random bytes. -/
opaque Config.randomByte : Nat → Byte

end Sys2Proof
end

