-- ==== Sys2Proof/Syntax.lean ====
section
/-! DEFINITION. The instructions: one constructor for each of the 26 rows of the opcode map (30_encoding.md R63,
spec/opcode_table.json), in the table's order, each with exactly the free fields of its pattern (R6, R67). -/

namespace Sys2Proof

/-- The 26 instructions. A register field is a `Reg`, an immediate is the bits of its field: every value of every
field is legal (R67), so a term that is no instruction cannot be written. -/
inductive Instr where
  /-- 00E0 `CLS` (R160). -/
  | cls
  /-- 00EE `RET` (R100). -/
  | ret
  /-- 1NNN `JP NNN` (R101). -/
  | jp (nnn : Addr12)
  /-- 2NNN `CALL NNN` (R102). -/
  | call (nnn : Addr12)
  /-- 3XNN `SE Vx, NN` (R103). -/
  | seImm (x : Reg) (nn : Byte)
  /-- 4XNN `SNE Vx, NN` (R104). -/
  | sneImm (x : Reg) (nn : Byte)
  /-- 6XNN `LD Vx, NN` (R120). -/
  | ldImm (x : Reg) (nn : Byte)
  /-- 7XNN `ADD Vx, NN` (R121). -/
  | addImm (x : Reg) (nn : Byte)
  /-- 8XY0 `LD Vx, Vy` (R122). -/
  | ldReg (x y : Reg)
  /-- 8XY2 `AND Vx, Vy` (R123). -/
  | andReg (x y : Reg)
  /-- 8XY4 `ADD Vx, Vy` (R124). -/
  | addReg (x y : Reg)
  /-- 8XY5 `SUB Vx, Vy` (R125). -/
  | subReg (x y : Reg)
  /-- 9XY0 `SNE Vx, Vy` (R105). -/
  | sneReg (x y : Reg)
  /-- ANNN `LD I, NNN` (R140). -/
  | ldI (nnn : Addr12)
  /-- CXNN `RND Vx, NN` (R126). -/
  | rnd (x : Reg) (nn : Byte)
  /-- DXYN `DRW Vx, Vy, N` (R161). -/
  | drw (x y : Reg) (n : Nibble)
  /-- EX9E `SKP Vx` (R180). -/
  | skp (x : Reg)
  /-- EXA1 `SKNP Vx` (R181). -/
  | sknp (x : Reg)
  /-- FX07 `LD Vx, DT` (R182). -/
  | ldVxDT (x : Reg)
  /-- FX0A `LD Vx, K` (R185). -/
  | ldVxK (x : Reg)
  /-- FX15 `LD DT, Vx` (R183). -/
  | ldDTVx (x : Reg)
  /-- FX18 `LD ST, Vx` (R184). -/
  | ldSTVx (x : Reg)
  /-- FX1E `ADD I, Vx` (R141). -/
  | addI (x : Reg)
  /-- FX29 `LD F, Vx` (R142). -/
  | ldF (x : Reg)
  /-- FX33 `LD B, Vx` (R143). -/
  | ldB (x : Reg)
  /-- FX65 `LD Vx, [I]` (R144). -/
  | ldVxMem (x : Reg)
deriving DecidableEq, Repr

end Sys2Proof
end

