-- ==== Sys2Proof/WellFormed.lean ====
section
/-! DEFINITION. The checks on what the outside gives the machine. An instruction needs none: its field types hold
exactly the legal values (30_encoding.md R67), so every term of `Instr` is well formed. What can be ill formed is a
ROM that does not fit (R241) and a bounded call stack of depth 0 (R4: `STACK_DEPTH` is a positive integer or none). -/

namespace Sys2Proof

/-- A ROM the loader accepts: at most 3584 bytes, `MEM_SIZE - ROM_BASE` (R241). A longer one is refused at the
boundary before any machine exists (R219). -/
def romWellFormed (rom : List Byte) : Bool := decide (rom.length ≤ romMax)

/-- `STACK_DEPTH` is a positive integer or none (D5). -/
def Config.wellFormed (c : Config) : Bool := c.stackDepth != some 0

end Sys2Proof
end

