-- ==== Sys2Proof/Decode.lean ====
section
/-! DEFINITION. The decoder (30_encoding.md R60 to R67): a word's fields (R61), the opcode map as a list of rows (R63),
decoding total on any word and on any bytes and rejecting by name (R65), and the encoder written from the same table
of formats (R62). -/

namespace Sys2Proof

/-- The outputs of the decoder for a word, produced for all 65536 words (R61). -/
structure Fields where
  /-- `w[15:12]`, the primary nibble. -/
  n3 : Nibble
  /-- `w[11:8]`. -/
  x : Nibble
  /-- `w[7:4]`. -/
  y : Nibble
  /-- `w[3:0]`. -/
  n : Nibble
  /-- `w[7:0]`. -/
  nn : Byte
  /-- `w[11:0]`. -/
  nnn : Addr12
deriving DecidableEq, Repr

/-- The pure, total field extraction of R61. -/
def fields (w : Word) : Fields where
  n3 := w.extractLsb' 12 4
  x := w.extractLsb' 8 4
  y := w.extractLsb' 4 4
  n := w.extractLsb' 0 4
  nn := w.extractLsb' 0 8
  nnn := w.extractLsb' 0 12

/-- The register a 4-bit field selects, taken straight from the field (R10, R67). -/
def regOfBits (b : Nibble) : Reg := ⟨b.toNat, b.isLt⟩

/-- The 4-bit field that selects a register. -/
def bitsOfReg (x : Reg) : Nibble := BitVec.ofNat 4 x.val

/-- The register the field X names. -/
def Fields.regX (f : Fields) : Reg := regOfBits f.x

/-- The register the field Y names. -/
def Fields.regY (f : Fields) : Reg := regOfBits f.y

/-- A row of the opcode map (R63): the word `w` selects it when `w and mask = value`. -/
structure Row where
  /-- The fixed bits of the pattern. -/
  value : Word
  /-- Ones where the pattern fixes a bit. -/
  mask : Word
  /-- The instruction of the row, from the fields of the word. -/
  build : Fields → Instr

/-- The word has every fixed digit of the row's pattern (R63, exact match: D22, log 23). -/
def Row.selects (r : Row) (w : Word) : Bool := w &&& r.mask == r.value

/-- The opcode map of R63, groups 0 to 7. -/
def rowsLow : List Row := [
  { value := 0x00E0, mask := 0xFFFF, build := fun _ => .cls },
  { value := 0x00EE, mask := 0xFFFF, build := fun _ => .ret },
  { value := 0x1000, mask := 0xF000, build := fun f => .jp f.nnn },
  { value := 0x2000, mask := 0xF000, build := fun f => .call f.nnn },
  { value := 0x3000, mask := 0xF000, build := fun f => .seImm f.regX f.nn },
  { value := 0x4000, mask := 0xF000, build := fun f => .sneImm f.regX f.nn },
  { value := 0x6000, mask := 0xF000, build := fun f => .ldImm f.regX f.nn },
  { value := 0x7000, mask := 0xF000, build := fun f => .addImm f.regX f.nn }]

/-- The opcode map of R63, groups 8 to D. -/
def rowsMiddle : List Row := [
  { value := 0x8000, mask := 0xF00F, build := fun f => .ldReg f.regX f.regY },
  { value := 0x8002, mask := 0xF00F, build := fun f => .andReg f.regX f.regY },
  { value := 0x8004, mask := 0xF00F, build := fun f => .addReg f.regX f.regY },
  { value := 0x8005, mask := 0xF00F, build := fun f => .subReg f.regX f.regY },
  { value := 0x9000, mask := 0xF00F, build := fun f => .sneReg f.regX f.regY },
  { value := 0xA000, mask := 0xF000, build := fun f => .ldI f.nnn },
  { value := 0xC000, mask := 0xF000, build := fun f => .rnd f.regX f.nn },
  { value := 0xD000, mask := 0xF000, build := fun f => .drw f.regX f.regY f.n }]

/-- The opcode map of R63, groups E and F. -/
def rowsHigh : List Row := [
  { value := 0xE09E, mask := 0xF0FF, build := fun f => .skp f.regX },
  { value := 0xE0A1, mask := 0xF0FF, build := fun f => .sknp f.regX },
  { value := 0xF007, mask := 0xF0FF, build := fun f => .ldVxDT f.regX },
  { value := 0xF00A, mask := 0xF0FF, build := fun f => .ldVxK f.regX },
  { value := 0xF015, mask := 0xF0FF, build := fun f => .ldDTVx f.regX },
  { value := 0xF018, mask := 0xF0FF, build := fun f => .ldSTVx f.regX },
  { value := 0xF01E, mask := 0xF0FF, build := fun f => .addI f.regX },
  { value := 0xF029, mask := 0xF0FF, build := fun f => .ldF f.regX },
  { value := 0xF033, mask := 0xF0FF, build := fun f => .ldB f.regX },
  { value := 0xF065, mask := 0xF0FF, build := fun f => .ldVxMem f.regX }]

/-- The whole opcode map, in the order of the source's table (R63). -/
def opcodeRows : List Row := rowsLow ++ rowsMiddle ++ rowsHigh

/-- Why bytes are no instruction. The seven regions of illegal words are those of R65. -/
inductive DecodeError where
  /-- Fewer than two bytes: an instruction is one 16-bit word (R60). -/
  | truncated
  /-- A word of group 0 other than 0x00E0 and 0x00EE. -/
  | illegalGroup0 (w : Word)
  /-- A word of group 5. -/
  | illegalGroup5 (w : Word)
  /-- 8XYn with `n` not in 0, 2, 4, 5. -/
  | illegalGroup8 (w : Word)
  /-- 9XYn with `n` not 0. -/
  | illegalGroup9 (w : Word)
  /-- A word of group B. -/
  | illegalGroupB (w : Word)
  /-- EXnn with `nn` not in 0x9E, 0xA1. -/
  | illegalGroupE (w : Word)
  /-- FXnn with `nn` not one of the eight of R63. -/
  | illegalGroupF (w : Word)
deriving DecidableEq, Repr

/-- The name of the region of a word that matches no row (R65): its group is its primary nibble. -/
def illegalRegion (w : Word) : DecodeError :=
  match (fields w).n3.toNat with
  | 0x0 => .illegalGroup0 w
  | 0x5 => .illegalGroup5 w
  | 0x8 => .illegalGroup8 w
  | 0x9 => .illegalGroup9 w
  | 0xB => .illegalGroupB w
  | 0xE => .illegalGroupE w
  | _ => .illegalGroupF w

/-- Decoding of an instruction word: the row it selects, or the region of illegal words it lies in (R63, R65). -/
def decodeWord (w : Word) : Except DecodeError Instr :=
  match opcodeRows.find? (fun r => r.selects w) with
  | some r => .ok (r.build (fields w))
  | none => .error (illegalRegion w)

/-- The word of two bytes in memory order: the byte at the lower address is `w[15:8]` (R43, R60; D1, log 9). -/
def wordOfBytes (hi lo : Byte) : Word := hi ++ lo

/-- Decoding of bytes in memory order: the instruction and the bytes after it. Total, rejecting by name. -/
def decode : List Byte → Except DecodeError (Instr × List Byte)
  | hi :: lo :: rest =>
    match decodeWord (wordOfBytes hi lo) with
    | .ok i => .ok (i, rest)
    | .error e => .error e
  | _ => .error .truncated

/-- Format A (R62): a primary nibble and a 12-bit address. -/
def formatA (op : Nibble) (nnn : Addr12) : Word := op ++ nnn

/-- Format I (R62): a primary nibble, X and an 8-bit immediate. -/
def formatI (op : Nibble) (x : Reg) (nn : Byte) : Word := op ++ bitsOfReg x ++ nn

/-- Formats R and D (R62): a primary nibble, X, Y and a last nibble. -/
def formatR (op : Nibble) (x y : Reg) (n : Nibble) : Word := op ++ bitsOfReg x ++ bitsOfReg y ++ n

/-- The word of an instruction, written from the formats of R62 and the patterns of R63. -/
def encode : Instr → Word
  | .cls => 0x00E0
  | .ret => 0x00EE
  | .jp nnn => formatA 0x1 nnn
  | .call nnn => formatA 0x2 nnn
  | .seImm x nn => formatI 0x3 x nn
  | .sneImm x nn => formatI 0x4 x nn
  | .ldImm x nn => formatI 0x6 x nn
  | .addImm x nn => formatI 0x7 x nn
  | .ldReg x y => formatR 0x8 x y 0x0
  | .andReg x y => formatR 0x8 x y 0x2
  | .addReg x y => formatR 0x8 x y 0x4
  | .subReg x y => formatR 0x8 x y 0x5
  | .sneReg x y => formatR 0x9 x y 0x0
  | .ldI nnn => formatA 0xA nnn
  | .rnd x nn => formatI 0xC x nn
  | .drw x y n => formatR 0xD x y n
  | .skp x => formatI 0xE x 0x9E
  | .sknp x => formatI 0xE x 0xA1
  | .ldVxDT x => formatI 0xF x 0x07
  | .ldVxK x => formatI 0xF x 0x0A
  | .ldDTVx x => formatI 0xF x 0x15
  | .ldSTVx x => formatI 0xF x 0x18
  | .addI x => formatI 0xF x 0x1E
  | .ldF x => formatI 0xF x 0x29
  | .ldB x => formatI 0xF x 0x33
  | .ldVxMem x => formatI 0xF x 0x65

/-- The high byte of a word, stored at the lower address (R43). -/
def highByte (w : Word) : Byte := w.extractLsb' 8 8

/-- The low byte of a word, stored at the higher address (R43). -/
def lowByte (w : Word) : Byte := w.extractLsb' 0 8

/-- The two bytes of an instruction in memory order. -/
def encodeBytes (i : Instr) : List Byte := [highByte (encode i), lowByte (encode i)]

/-- The first instruction word of the bits of a row of spec/opcode_table.json: bit 0 of `w` is bit 0 of the word, and
the bits at and above `nbits` are 0. -/
def tableWord (nbits w : Nat) : Word := BitVec.ofNat 16 (w % 2 ^ nbits)

/-- The instruction the decoder reads from those bits, laid out in memory order. -/
def decodeTableWord (nbits w : Nat) : Option Instr :=
  match decode [highByte (tableWord nbits w), lowByte (tableWord nbits w)] with
  | .ok (i, _) => some i
  | .error _ => none

end Sys2Proof
end

