-- ==== Sys2Proof/Machine/State.lean ====
section
/-! DEFINITION. The state of the machine as plain data (10_state.md R10 to R24), the events the outside delivers (R26),
the reasons a step can stop, and the state after reset (70_reset_and_hazards.md R240, R242). -/

namespace Sys2Proof.Machine

/-- The fault kinds of 60_exceptions.md R200. Taking one is described by the spec (R206), so it leads to a NEXT state
in `halted` that records the kind; the host's outcome `fault` is answered by no step (log 1; safe: nothing is left out). -/
inductive Fault where
  /-- Code 1, raised by dispatch: the fetched word matches no pattern (R201). Safe: the spec's own fault. -/
  | unknownOpcode
  /-- Code 2, raised by fetch, FX1E, FX33, FX65, DXYN: an address, or a new value of `I`, above 0x0FFF (R202). Safe:
  the spec's own fault; the bound on a new `I` is its decision D7. -/
  | memoryOutOfRange
  /-- Code 3, raised by 00EE on an empty stack (R203). Safe: the spec's own fault. -/
  | stackUnderflow
  /-- Code 4, raised by 2NNN on a full stack of bounded depth (R204). Safe: the spec's own fault. -/
  | stackOverflow
  /-- Code 5, raised by EX9E and EXA1 when `V[X] > 15` (R205). Safe: the spec's own fault, its decision D10. -/
  | keyIdOutOfRange
deriving DecidableEq, Repr

/-- Why a step gives no next state. -/
inductive Refusal where
  /-- An instruction without a meaning yet; raised by no arm of this model. Safe. -/
  | notModelled (mnemonic : String)
  /-- Raised by the event `Construct(rom)` alone, when the ROM is longer than 3584 bytes: the loader refuses it at the
  boundary before any machine exists (R219, R241). Safe. -/
  | romTooLong
deriving DecidableEq, Repr

/-- The diagnostics record (R23, R206). -/
structure FaultRecord where
  kind : Fault
  /-- `pc` at the start of the faulting cycle. -/
  pc : Word
  /-- The cycles completed before the faulting one. -/
  cycles : Nat
deriving DecidableEq, Repr

/-- The run state (R21). `wait_reg` and `fault` have a meaning in one run state each and stand as its argument, as R22
and R23 allow (log 24). -/
inductive RunState where
  | running
  /-- Entered by FX0A; `waitReg` is the latch `wait_reg` (R22). -/
  | waitingForKey (waitReg : Reg)
  /-- Entered by a fault (R206). -/
  | halted (fault : FaultRecord)
deriving DecidableEq, Repr

/-- The five atomic events of the interface (R26). -/
inductive Event where
  /-- The driver's event: one step of the engine, with the random byte `r` (R80, R93). -/
  | cycle (r : Byte)
  /-- The 60 Hz event (R186). -/
  | tick
  /-- The input collaborator's event (R187). -/
  | keyEvent (id : KeyId) (pressed : Bool)
  /-- The renderer's event (R165). -/
  | frameAck
  /-- The driver's event: a new machine with this ROM (R240). -/
  | construct (rom : List Byte)
deriving DecidableEq, Repr

/-- Memory as a list of address and byte pairs in one canonical form (`Memory.wf` in Ops.lean): addresses strictly
rising, and no entry equal to what an unlisted address reads as, which is the reset image (R46). -/
abbrev Memory := List Host.Cell

/-- The framebuffer (R18): row `y` is entry `y`, and the pixel of column `x` is bit `x` of the row. -/
abbrev Framebuffer := Vector (BitVec 64) 32

/-- The whole state. The first group is the hardware's (R10 to R24), the second its parameters (R4), the third the
model's own fields for what the outside does next (log 3, log 4). -/
structure State where
  /-- The general registers; `V[15]` is VF (R10, R11). -/
  V : Vector Byte 16
  /-- The index register (R12). -/
  I : Word
  /-- The program counter (R13). -/
  pc : Word
  /-- The call stack (R14), the last entry pushed first; `sp` is its length. -/
  stack : List Word
  /-- The delay timer (R15). -/
  DT : Byte
  /-- The sound timer (R15). -/
  ST : Byte
  /-- The memory (R16). -/
  mem : Memory
  /-- The framebuffer (R18). -/
  fb : Framebuffer
  /-- The dirty flag (R19). -/
  dirty : Bool
  /-- The key flags (R20). -/
  keys : Vector Bool 16
  /-- The run state with the wait latch or the fault record (R21, R22, R23). -/
  run : RunState
  /-- The cycle counter, unbounded in a model (R24). -/
  cycles : Nat
  /-- The open parameters (R4); no event changes them. -/
  cfg : Config
  /-- MODEL'S OWN: the argument `r` of the `Cycle(r)` under way (R93). -/
  random : Byte
  /-- MODEL'S OWN: how many free random bytes have been drawn; the n-th is `Config.randomByte n`. -/
  draws : Nat
  /-- MODEL'S OWN: the events the outside delivers next, oldest first (R27). -/
  schedule : List Event
deriving DecidableEq, Repr

/-- The state after `Construct` with an empty ROM (R240, R242): memory reads as the reset image, so nothing is listed.
The values the source does not state are the spec's decision D13 (log 7); parameters: log 5, log 6; the model's own
fields: log 3, log 4. -/
def State.reset : State where
  V := Vector.replicate 16 0
  I := 0
  pc := 0x0200
  stack := []
  DT := 0
  ST := 0
  mem := []
  fb := Vector.replicate 32 0
  dirty := false
  keys := Vector.replicate 16 false
  run := .running
  cycles := 0
  cfg := Config.default
  random := 0
  draws := 0
  schedule := []

end Sys2Proof.Machine
end

