-- ==== Sys2Proof/Machine/Ops.lean ====
section
/-! DEFINITION. The named operations every meaning is written over: memory (20_memory.md), registers, `I`, `pc`, the
call stack (10_state.md), the framebuffer's pixels, and fault entry, the one way this hardware takes an exception
(60_exceptions.md R206). Halted is terminal (R208): there is no return from a fault, so no operation beside fault entry
leaves Halted; only the event `Construct` does (Events.lean). -/

namespace Sys2Proof.Machine

/-! ## Memory -/

/-- What an address reads as when memory does not list it: the reset image of R16 and R47, which is the font table at
0x000 to 0x04F and 0 everywhere else (the ROM is written over it by `Construct`). -/
def imageByte (font : Vector Byte 80) (a : Nat) : Byte :=
  if h : a < 80 then font[a] else 0

/-- The byte listed for an address. -/
def Memory.lookup : Memory → Nat → Option Byte
  | [], _ => none
  | (b, v) :: rest, a => if a = b then some v else Memory.lookup rest a

/-- The byte at an address: the listed one, or the reset image (R46). -/
def Memory.get (font : Vector Byte 80) (m : Memory) (a : Nat) : Byte :=
  (Memory.lookup m a).getD (imageByte font a)

/-- Memory without an entry for `a`. -/
def Memory.erase (m : Memory) (a : Nat) : Memory := m.filter (fun c => c.1 != a)

/-- An entry put at its place in rising order. -/
def Memory.insert : Memory → Nat → Byte → Memory
  | [], a, v => [(a, v)]
  | (b, u) :: rest, a, v => if a < b then (a, v) :: (b, u) :: rest else (b, u) :: Memory.insert rest a v

/-- Memory with the byte `v` at `a`: writing what the address reads as when unlisted removes its entry, so that equal
memories are equal lists. -/
def Memory.set (font : Vector Byte 80) (m : Memory) (a : Nat) (v : Byte) : Memory :=
  if v = imageByte font a then Memory.erase m a else Memory.insert (Memory.erase m a) a v

/-- The canonical form: addresses strictly rising, each inside the 4096 bytes (R40), and no entry equal to what its
address reads as when unlisted. -/
abbrev Memory.wf (font : Vector Byte 80) (m : Memory) : Prop :=
  (m.map Prod.fst).Pairwise (· < ·) ∧ ∀ c ∈ m, c.1 < memSize ∧ c.2 ≠ imageByte font c.1

/-- `MemRead(addr, 1)` (R41). -/
def State.memRead (s : State) (addr : Nat) : Except Fault Byte :=
  if addr > lastAddr then .error .memoryOutOfRange else .ok (Memory.get s.cfg.font s.mem addr)

/-- `MemRead(addr, 2)` (R41): the byte at the lower address in the high half (R43; D1, log 9). -/
def State.memReadWord (s : State) (addr : Nat) : Except Fault Word :=
  if addr + 1 > lastAddr then .error .memoryOutOfRange
  else .ok (wordOfBytes (Memory.get s.cfg.font s.mem addr) (Memory.get s.cfg.font s.mem (addr + 1)))

/-- `MemWrite(addr, 1, v)` (R42). -/
def State.memWrite (s : State) (addr : Nat) (v : Byte) : Except Fault State :=
  if addr > lastAddr then .error .memoryOutOfRange
  else .ok { s with mem := Memory.set s.cfg.font s.mem addr v }

/-- `MemRead` of `n` bytes by ascending address (R43, R45). -/
def State.memReadBytes (s : State) : Nat → Nat → Except Fault (List Byte)
  | _, 0 => .ok []
  | addr, n + 1 =>
    match s.memRead addr with
    | .error k => .error k
    | .ok b => (s.memReadBytes (addr + 1) n).map (fun bs => b :: bs)

/-- `MemWrite` of bytes by ascending address (R43, R45). -/
def State.memWriteBytes (s : State) : Nat → List Byte → Except Fault State
  | _, [] => .ok s
  | addr, b :: bs =>
    match s.memWrite addr b with
    | .error k => .error k
    | .ok t => t.memWriteBytes (addr + 1) bs

/-! ## Registers -/

/-- `V[x]` (R10). -/
def State.readV (s : State) (x : Reg) : Byte := s.V[x]

/-- `V[x] <- v` (R10): no register is hard-wired. -/
def State.writeV (s : State) (x : Reg) (v : Byte) : State := { s with V := s.V.set x v }

/-- The register that holds the flag, VF (R11). -/
def regVF : Reg := 15

/-- A flag as the 8-bit number 0 or 1 (R11). -/
def flagByte (flag : Bool) : Byte := if flag then 1 else 0

/-- `V[15] <- 1 if flag else 0` (R11). -/
def State.writeFlag (s : State) (flag : Bool) : State := s.writeV regVF (flagByte flag)

/-- `I <- t`, with the invariant `I <= 0x0FFF` enforced at the write (R12; D7, log 11). -/
def State.setI (s : State) (t : Nat) : Except Fault State :=
  if t > lastAddr then .error .memoryOutOfRange else .ok { s with I := BitVec.ofNat 16 t }

/-! ## Program counter -/

/-- `pc <- target`. Nothing checks a new `pc` when it is written (R82, R107). -/
def State.setPc (s : State) (target : Word) : State := { s with pc := target }

/-- `pc <- pc + 2` (R82 a). -/
def State.advance (s : State) : State := s.setPc (s.pc + 2)

/-- `pc <- pc + 4` when the condition of a skip holds, else `pc <- pc + 2` (R82 b, R106). -/
def State.skipIf (s : State) (cond : Bool) : State := if cond then s.setPc (s.pc + 4) else s.advance

/-! ## Call stack -/

/-- `sp`: the number of entries of the call stack (R14). -/
def State.sp (s : State) : Nat := s.stack.length

/-- The call stack is full: its depth is bounded and reached (R14). -/
def State.stackFull (s : State) : Bool := s.cfg.stackDepth == some s.sp

/-- `push(v)` (R14). -/
def State.push (s : State) (v : Word) : Except Fault State :=
  if s.stackFull then .error .stackOverflow else .ok { s with stack := v :: s.stack }

/-- `pop()` (R14): the last entry pushed, and the machine without it. -/
def State.pop (s : State) : Except Fault (Word × State) :=
  match s.stack with
  | [] => .error .stackUnderflow
  | v :: rest => .ok (v, { s with stack := rest })

/-! ## Framebuffer -/

/-- `fb[y][x]` (R18). -/
def pixel (fb : Framebuffer) (x : Fin 64) (y : Fin 32) : Bool := fb[y].getLsbD x

/-- `fb[y][x] <- fb[y][x] xor 1` (R161). -/
def togglePixel (fb : Framebuffer) (x : Fin 64) (y : Fin 32) : Framebuffer :=
  fb.set y (fb[y] ^^^ BitVec.twoPow 64 x)

/-- Every pixel 0 (R160). -/
def blankFramebuffer : Framebuffer := Vector.replicate 32 0

/-! ## Taking a fault -/

/-- Fault entry (R206): `run <- Halted`, `fault <- (kind, pc, cycles)` with `pc` and `cycles` from before the cycle, and
every other piece of state as it was. There is no vector, no handler, no saved state and no return (R208). -/
def State.takeFault (s : State) (kind : Fault) : State :=
  { s with run := .halted { kind := kind, pc := s.pc, cycles := s.cycles } }

/-- Steps 6 and 7 of the cycle (R81) for one instruction: all its writes, or, when a check raised a fault, none of them
and fault entry (R83, R84; D8, log 14). -/
def settle (s : State) : Except Fault State → Host.Outcome State Fault Refusal
  | .ok t => .next t
  | .error kind => .next (s.takeFault kind)

end Sys2Proof.Machine
end

