-- ==== Sys2Proof/Machine/Operands.lean ====
section
/-! DEFINITION. Every operand form of the instruction set: register operands (R67, `State.readV`), the address
immediate, the data address `I + k` with its whole-range checks (R145, R45), and a register used as a key id. -/

namespace Sys2Proof.Machine

/-- `zext_16(NNN)`: the 12-bit address of an instruction as a word (R67): not scaled, not relative to `pc`. -/
def addrOperand (nnn : Addr12) : Word := nnn.zeroExtend 16

/-- The data address `I + k`, on unbounded integers (R145): it never wraps. -/
def State.dataAddr (s : State) (k : Nat) : Nat := s.I.toNat + k

/-- The whole range of an access of `n` bytes at `I` is checked before any of it (R45): `n = 0` accesses nothing. -/
def State.dataInRange (s : State) (n : Nat) : Bool := n == 0 || decide (s.dataAddr (n - 1) ≤ lastAddr)

/-- The `n` bytes from `I` (R143 to R145, R161), the whole range checked first. -/
def State.readData (s : State) (n : Nat) : Except Fault (List Byte) :=
  if s.dataInRange n then s.memReadBytes (s.dataAddr 0) n else .error .memoryOutOfRange

/-- The bytes stored from `I` on (R143), the whole range checked first. -/
def State.writeData (s : State) (bytes : List Byte) : Except Fault State :=
  if s.dataInRange bytes.length then s.memWriteBytes (s.dataAddr 0) bytes else .error .memoryOutOfRange

/-- `V[x]` as a key id: above 15 it is none (R180, R181; D10, log 13). -/
def State.keyOperand (s : State) (x : Reg) : Except Fault KeyId :=
  if h : (s.readV x).toNat < 16 then .ok ⟨(s.readV x).toNat, h⟩ else .error .keyIdOutOfRange

/-- `keys[k] = 1` (R20). -/
def State.keyDown (s : State) (k : KeyId) : Bool := s.keys[k]

/-- The three decimal digits of a byte, hundreds first, each a whole byte (R143). -/
def bcdDigits (v : Byte) : List Byte :=
  [BitVec.ofNat 8 (v.toNat / 100), BitVec.ofNat 8 (v.toNat / 10 % 10), BitVec.ofNat 8 (v.toNat % 10)]

/-- `V[k], V[k+1], ... <- bytes`, in ascending order of register (R144). -/
def loadRegs (V : Vector Byte 16) : Nat → List Byte → Vector Byte 16
  | _, [] => V
  | k, b :: bs => loadRegs (V.setIfInBounds k b) (k + 1) bs

end Sys2Proof.Machine
end

