-- ==== Sys2Proof/Machine/ControlFlow.lean ====
section
/-! DEFINITION. The control flow instructions (41_control_flow.md): RET, JP, CALL and the three register-compare
skips. -/

namespace Sys2Proof.Machine

/-- 00EE `RET` (R100): `pc` gets the popped value as it is. -/
def execRet (s : State) : Host.Outcome State Fault Refusal :=
  settle s (s.pop.map fun p => p.2.setPc p.1)

/-- 1NNN `JP NNN` (R101). -/
def execJp (nnn : Addr12) (s : State) : Host.Outcome State Fault Refusal :=
  .next (s.setPc (addrOperand nnn))

/-- 2NNN `CALL NNN` (R102): the address after this instruction is pushed. -/
def execCall (nnn : Addr12) (s : State) : Host.Outcome State Fault Refusal :=
  settle s ((s.push (s.pc + 2)).map fun t => t.setPc (addrOperand nnn))

/-- 3XNN `SE Vx, NN` (R103). -/
def execSeImm (x : Reg) (nn : Byte) (s : State) : Host.Outcome State Fault Refusal :=
  .next (s.skipIf (s.readV x == nn))

/-- 4XNN `SNE Vx, NN` (R104). -/
def execSneImm (x : Reg) (nn : Byte) (s : State) : Host.Outcome State Fault Refusal :=
  .next (s.skipIf (s.readV x != nn))

/-- 9XY0 `SNE Vx, Vy` (R105). -/
def execSneReg (x y : Reg) (s : State) : Host.Outcome State Fault Refusal :=
  .next (s.skipIf (s.readV x != s.readV y))

end Sys2Proof.Machine
end

