-- ==== Sys2Proof/Machine/Flags.lean ====
section
/-! DEFINITION. Every flag computation of the instruction set (10_state.md R11), each with the result it belongs to.
The hardware has no flag register: a flag is written to VF by `State.writeFlag`. Flags and results are computed on the
exact integers and narrowed at the end (42_register_alu.md R127). -/

namespace Sys2Proof.Machine

/-- The carry of 8XY4: 1 when the exact sum is above 255 (R124). -/
def carryOut (a b : Byte) : Bool := decide (a.toNat + b.toNat > 255)

/-- The sum modulo 256 of 7XNN and 8XY4 (R121, R124). -/
def addResult (a b : Byte) : Byte := BitVec.ofNat 8 (a.toNat + b.toNat)

/-- The not-borrow of 8XY5: 0 when `a < b`, else 1 (R125). -/
def notBorrow (a b : Byte) : Bool := !decide (a.toNat < b.toNat)

/-- The difference modulo 256 of 8XY5 (R125), on the integers. -/
def subResult (a b : Byte) : Byte := BitVec.ofInt 8 ((a.toNat : Int) - (b.toNat : Int))

/-- The flag first, then the result, so that with `x = 15` the result stays in VF (R89; D9, log 12). -/
def State.writeFlagThenResult (s : State) (x : Reg) (flag : Bool) (result : Byte) : State :=
  (s.writeFlag flag).writeV x result

/-- One pixel of a draw (R161, R163): the collision flag is 1 from the first set pixel that is turned off. -/
def collides (collided old : Bool) : Bool := collided || old

end Sys2Proof.Machine
end

