-- ==== Sys2Proof/Machine/Display.lean ====
section
/-! DEFINITION. The display instructions (44_display.md): CLS and DRW. -/

namespace Sys2Proof.Machine

/-- A draw under way: the framebuffer so far and the collision flag so far (`c` of R161). -/
structure Drawing where
  fb : Framebuffer
  collided : Bool
deriving DecidableEq, Repr

/-- The framebuffer pixel of column offset `col` from `x0`: wrapped modulo 64 (R162). -/
def drawX (x0 col : Nat) : Fin 64 := Fin.ofNat 64 (x0 + col)

/-- The framebuffer row of row offset `k` from `y0`: wrapped modulo 32 (R162). -/
def drawY (y0 k : Nat) : Fin 32 := Fin.ofNat 32 (y0 + k)

/-- The sprite pixel of column offset `col` in a sprite byte: bit 7 is the leftmost (R162; D20, log 10). -/
def spriteBit (b : Byte) (col : Nat) : Bool := b.getLsbD (7 - col)

/-- A set sprite pixel on the framebuffer (R161): the collision test, then the XOR. -/
def plot (x : Fin 64) (y : Fin 32) (d : Drawing) : Drawing where
  fb := togglePixel d.fb x y
  collided := collides d.collided (pixel d.fb x y)

/-- Columns `8 - n` to 7 of one sprite byte on row `y` (the inner loop of R161 with `n` columns left). -/
def drawCols (x0 : Nat) (y : Fin 32) (b : Byte) : Nat → Drawing → Drawing
  | 0, d => d
  | n + 1, d => drawCols x0 y b n (if spriteBit b (7 - n) then plot (drawX x0 (7 - n)) y d else d)

/-- The rows of a sprite from row offset `k` on (the outer loop of R161). -/
def drawRows (x0 y0 : Nat) : Nat → List Byte → Drawing → Drawing
  | _, [], d => d
  | k, b :: bs, d => drawRows x0 y0 (k + 1) bs (drawCols x0 (drawY y0 k) b 8 d)

/-- A whole sprite drawn at `(x0, y0)` (R161). -/
def drawSprite (x0 y0 : Nat) (bytes : List Byte) (fb : Framebuffer) : Drawing :=
  drawRows x0 y0 0 bytes { fb := fb, collided := false }

/-- The writes of DXYN (R161): pixels, then VF, then `dirty`. -/
def State.commitDrawing (s : State) (d : Drawing) : State :=
  { s with fb := d.fb, dirty := true }.writeFlag d.collided

/-- 00E0 `CLS` (R160). -/
def execCls (s : State) : Host.Outcome State Fault Refusal :=
  .next { s with fb := blankFramebuffer, dirty := true }.advance

/-- DXYN `DRW Vx, Vy, N` (R161): the coordinates are read before VF is written (R88); with `N = 0`
no row is drawn (D26, log 22). -/
def execDrw (x y : Reg) (n : Nibble) (s : State) : Host.Outcome State Fault Refusal :=
  settle s <| (s.readData n.toNat).map fun bytes =>
    (s.commitDrawing (drawSprite (s.readV x).toNat (s.readV y).toNat bytes s.fb)).advance

end Sys2Proof.Machine
end

