-- ==== Sys2Proof/Machine/IndexMemory.lean ====
section
/-! DEFINITION. The index register and memory instructions (43_index_memory.md). -/

namespace Sys2Proof.Machine

/-- ANNN `LD I, NNN` (R140). -/
def execLdI (nnn : Addr12) (s : State) : Host.Outcome State Fault Refusal :=
  .next { s with I := addrOperand nnn }.advance

/-- FX1E `ADD I, Vx` (R141): a sum above 0x0FFF is a fault (D7, log 11); VF is not written. -/
def execAddI (x : Reg) (s : State) : Host.Outcome State Fault Refusal :=
  settle s ((s.setI (s.I.toNat + (s.readV x).toNat)).map State.advance)

/-- FX29 `LD F, Vx` (R142): `V[X]` is not masked (D27, log 22). -/
def execLdF (x : Reg) (s : State) : Host.Outcome State Fault Refusal :=
  .next { s with I := BitVec.ofNat 16 ((s.readV x).toNat * 5) }.advance

/-- FX33 `LD B, Vx` (R143): the only store of the instruction set; `I` is not changed. -/
def execLdB (x : Reg) (s : State) : Host.Outcome State Fault Refusal :=
  settle s ((s.writeData (bcdDigits (s.readV x))).map State.advance)

/-- FX65 `LD Vx, [I]` (R144): the bound on the new `I` covers the reads and is checked first (D7, log 11); the reads use
the old `I`. -/
def execLdVxMem (x : Reg) (s : State) : Host.Outcome State Fault Refusal :=
  settle s <|
    match s.setI (s.I.toNat + x.val + 1) with
    | .error kind => .error kind
    | .ok t => (s.readData (x.val + 1)).map fun bytes => { t with V := loadRegs s.V 0 bytes }.advance

end Sys2Proof.Machine
end

