-- ==== Sys2Proof/Machine/KeypadTimers.lean ====
section
/-! DEFINITION. The keypad and timer instructions (45_keypad_timers.md). The events `Tick` and `KeyEvent` are in
Events.lean. -/

namespace Sys2Proof.Machine

/-- EX9E `SKP Vx` (R180). -/
def execSkp (x : Reg) (s : State) : Host.Outcome State Fault Refusal :=
  settle s ((s.keyOperand x).map fun k => s.skipIf (s.keyDown k))

/-- EXA1 `SKNP Vx` (R181). -/
def execSknp (x : Reg) (s : State) : Host.Outcome State Fault Refusal :=
  settle s ((s.keyOperand x).map fun k => s.skipIf (!s.keyDown k))

/-- FX07 `LD Vx, DT` (R182). -/
def execLdVxDT (x : Reg) (s : State) : Host.Outcome State Fault Refusal :=
  .next (s.writeV x s.DT).advance

/-- FX0A `LD Vx, K` (R185): the wait begins and `pc` moves at once (D11, log 16); `keys` is not looked at. -/
def execLdVxK (x : Reg) (s : State) : Host.Outcome State Fault Refusal :=
  .next { s with run := .waitingForKey x }.advance

/-- FX15 `LD DT, Vx` (R183). -/
def execLdDTVx (x : Reg) (s : State) : Host.Outcome State Fault Refusal :=
  .next { s with DT := s.readV x }.advance

/-- FX18 `LD ST, Vx` (R184). -/
def execLdSTVx (x : Reg) (s : State) : Host.Outcome State Fault Refusal :=
  .next { s with ST := s.readV x }.advance

end Sys2Proof.Machine
end

