-- ==== Sys2Proof/Machine/RegisterAlu.lean ====
section
/-! DEFINITION. The register and arithmetic instructions (42_register_alu.md). Every operand is read from the state
before any write (R88). -/

namespace Sys2Proof.Machine

/-- 6XNN `LD Vx, NN` (R120). -/
def execLdImm (x : Reg) (nn : Byte) (s : State) : Host.Outcome State Fault Refusal :=
  .next (s.writeV x nn).advance

/-- 7XNN `ADD Vx, NN` (R121): no flag is written. -/
def execAddImm (x : Reg) (nn : Byte) (s : State) : Host.Outcome State Fault Refusal :=
  .next (s.writeV x (addResult (s.readV x) nn)).advance

/-- 8XY0 `LD Vx, Vy` (R122). -/
def execLdReg (x y : Reg) (s : State) : Host.Outcome State Fault Refusal :=
  .next (s.writeV x (s.readV y)).advance

/-- 8XY2 `AND Vx, Vy` (R123): no flag is written. -/
def execAndReg (x y : Reg) (s : State) : Host.Outcome State Fault Refusal :=
  .next (s.writeV x (s.readV x &&& s.readV y)).advance

/-- 8XY4 `ADD Vx, Vy` (R124). -/
def execAddReg (x y : Reg) (s : State) : Host.Outcome State Fault Refusal :=
  .next (s.writeFlagThenResult x (carryOut (s.readV x) (s.readV y)) (addResult (s.readV x) (s.readV y))).advance

/-- 8XY5 `SUB Vx, Vy` (R125). -/
def execSubReg (x y : Reg) (s : State) : Host.Outcome State Fault Refusal :=
  .next (s.writeFlagThenResult x (notBorrow (s.readV x) (s.readV y)) (subResult (s.readV x) (s.readV y))).advance

/-- CXNN `RND Vx, NN` (R126): `draw8()` is the argument of the `Cycle(r)` under way (R93; log 4). -/
def execRnd (x : Reg) (nn : Byte) (s : State) : Host.Outcome State Fault Refusal :=
  .next (s.writeV x (s.random &&& nn)).advance

end Sys2Proof.Machine
end

