-- ==== Sys2Proof/Machine/Events.lean ====
section
/-! DEFINITION. The events of the outside other than `Cycle` (10_state.md R26), each one atomic, and the outputs the
outside reads between events (R28). -/

namespace Sys2Proof.Machine

/-! ## Outputs -/

/-- The output `tone`: 1 exactly when `ST > 0` (R189). -/
def State.tone (s : State) : Bool := decide (s.ST.toNat > 0)

/-- The numeric code of a fault kind (R200; D15, log 21). -/
def Fault.code : Fault → BitVec 3
  | .unknownOpcode => 1
  | .memoryOutOfRange => 2
  | .stackUnderflow => 3
  | .stackOverflow => 4
  | .keyIdOutOfRange => 5

/-- The output `fault`: the record in Halted, none before (R23, R28). -/
def State.faultRecord (s : State) : Option FaultRecord :=
  match s.run with
  | .halted f => some f
  | _ => none

/-- The port `fault.kind`: 0 while `run` is not Halted (R200). -/
def State.faultCode (s : State) : BitVec 3 :=
  match s.run with
  | .halted f => f.kind.code
  | _ => 0

/-! ## Tick -/

/-- One step of a timer toward 0, never below it (R186). -/
def countDown (t : Byte) : Byte := if t.toNat > 0 then t - 1 else t

/-- `Tick` (R186): both timers step, in Running and in WaitingForKey; in Halted nothing (D18, log 17). -/
def State.tick (s : State) : State :=
  match s.run with
  | .halted _ => s
  | _ => { s with DT := countDown s.DT, ST := countDown s.ST }

/-! ## KeyEvent -/

/-- `keys[id] <- pressed` (R187). -/
def State.setKey (s : State) (id : KeyId) (pressed : Bool) : State := { s with keys := s.keys.set id pressed }

/-- Resolution of a key wait (R188): the id, zero-extended, into the latched register, and `run` is Running again. -/
def State.endWait (s : State) (waitReg : Reg) (id : KeyId) : State :=
  { s.writeV waitReg (BitVec.ofNat 8 id.val) with run := .running }

/-- `KeyEvent(id, pressed)` (R187): the flag in every run state, and a press ends a key wait (R188; D11, log 16). -/
def State.keyEvent (s : State) (id : KeyId) (pressed : Bool) : State :=
  match s.run, pressed with
  | .waitingForKey waitReg, true => (s.setKey id true).endWait waitReg id
  | _, _ => s.setKey id pressed

/-! ## FrameAck -/

/-- `FrameAck` (R165). -/
def State.frameAck (s : State) : State := { s with dirty := false }

/-! ## Construct -/

/-- The ROM bytes over memory from an address on (R240). -/
def loadBytes (font : Vector Byte 80) : Memory → Nat → List Byte → Memory
  | m, _, [] => m
  | m, a, b :: bs => loadBytes font (Memory.set font m a b) (a + 1) bs

/-- The machine `Construct` builds (R240): everything at its reset value and the ROM at 0x200. The parameters of the
hardware and what the outside does next are no state of the old machine and stay (log 15). -/
def State.construct (s : State) (rom : List Byte) : State :=
  { State.reset with
    cfg := s.cfg
    draws := s.draws
    schedule := s.schedule
    mem := loadBytes s.cfg.font [] romBase rom }

/-- `Construct(rom)` (R240, R241): a ROM that does not fit is refused before any machine exists (R219; D14, log 18). -/
def constructEvent (rom : List Byte) (s : State) : Host.Outcome State Fault Refusal :=
  if romWellFormed rom then .next (s.construct rom) else .refused .romTooLong

end Sys2Proof.Machine
end

