-- ==== Sys2Proof/Machine/Cycle.lean ====
section
/-! DEFINITION. The `Cycle` event (40_engine_cycle.md): fetch, decode, dispatch, execute, count. And the delivery of
one event of the outside (10_state.md R26, R27). -/

namespace Sys2Proof.Machine

/-- Steps 1 to 3 of the cycle (R81): the word at `pc`, checked against the end of memory at fetch and only there
(D3, log 19). No alignment is asked (R44). -/
def State.fetch (s : State) : Except Fault Word :=
  if s.pc.toNat > 0x0FFE then .error .memoryOutOfRange else s.memReadWord s.pc.toNat

/-- Step 8 of the cycle (R81, R24): a cycle that raised no fault counts. -/
def State.countCycle (s : State) : State :=
  match s.run with
  | .halted _ => s
  | _ => { s with cycles := s.cycles + 1 }

/-- What the cycle adds after the instruction's own effect. -/
def finishCycle : Host.Outcome State Fault Refusal → Host.Outcome State Fault Refusal
  | .next t => .next t.countCycle
  | .fault k => .fault k
  | .refused r => .refused r

/-- One cycle in Running (R81), with the priority of R209: fetch, then dispatch, then the instruction's own check. -/
def runCycle (s : State) : Host.Outcome State Fault Refusal :=
  match s.fetch with
  | .error kind => .next (s.takeFault kind)
  | .ok w =>
    match decodeWord w with
    | .error _ => .next (s.takeFault .unknownOpcode)
    | .ok i => finishCycle (exec i s)

/-- `Cycle(r)` (R80): one instruction in Running, nothing at all in WaitingForKey (R85) and in Halted (R86). -/
def cycle (r : Byte) (s : State) : Host.Outcome State Fault Refusal :=
  match s.run with
  | .running => runCycle { s with random := r }
  | _ => .next s

/-- One event, atomic and complete (R26, R27). -/
def deliver (e : Event) (s : State) : Host.Outcome State Fault Refusal :=
  match e with
  | .cycle r => cycle r s
  | .tick => .next s.tick
  | .keyEvent id pressed => .next (s.keyEvent id pressed)
  | .frameAck => .next s.frameAck
  | .construct rom => constructEvent rom s

/-- The event the outside delivers next: the oldest one of the schedule, and, where the schedule names none, a `Cycle`
whose random byte is the free value (R27, R93; log 3, log 4). -/
def State.nextEvent (s : State) : Event :=
  match s.schedule with
  | [] => .cycle (Config.randomByte s.draws)
  | e :: _ => e

/-- The state with that event taken from the schedule, or the free byte drawn. -/
def State.takeEvent (s : State) : State :=
  match s.schedule with
  | [] => { s with draws := s.draws + 1 }
  | _ :: rest => { s with schedule := rest }

end Sys2Proof.Machine
end

