-- ==== Sys2Proof/Machine/Step.lean ====
section
/-! DEFINITION. One step of the machine: the delivery of the next event of the outside. -/

namespace Sys2Proof.Machine

/-- One step: the next event is taken and delivered (10_state.md R26, R27). With an empty schedule, as at reset, every
step is one `Cycle`. -/
def step (s : State) : Host.Outcome State Fault Refusal := deliver s.nextEvent s.takeEvent

/-- `s` with an instruction stored where the next step fetches. The fetch needs a `Cycle` as the next event, `run` at
Running, and `pc` at most 0x0FFE; a `pc` above that is set to 0x200 (log 2). -/
def State.withFetchWord (s : State) (nbits w : Nat) : State :=
  let pc : Word := if s.pc.toNat > 0x0FFE then 0x0200 else s.pc
  let word := tableWord nbits w
  { s with
    pc := pc
    run := .running
    schedule := []
    mem := Memory.set s.cfg.font (Memory.set s.cfg.font s.mem pc.toNat (highByte word)) (pc.toNat + 1) (lowByte word) }

end Sys2Proof.Machine
end

