-- ==== Sys2Proof/Safety.lean ====
section
/-! DEFINITION. What counts as a safe machine state and a safe run, and the terms the statements use: the invariant of
every reachable state (95_test_vectors.md section 6), the words of the illegal regions (30_encoding.md R65), the
destinations of each instruction (10_state.md R10, R11), and what "only this changed" means. -/

namespace Sys2Proof.Machine

/-! ## Safe states and runs -/

/-- `run = Halted` (R21). -/
def State.isHalted (s : State) : Bool :=
  match s.run with
  | .halted _ => true
  | _ => false

/-- The invariant of the machine: memory in canonical form and inside its 4096 bytes, `I` at most 0x0FFF (R12), `pc` at
most 0x1002 (R13), every return address from 0x0002 to 0x1000 (R100, R102), and `sp` at most `STACK_DEPTH` (R14). -/
structure State.Inv (s : State) : Prop where
  mem_canonical : Memory.wf s.cfg.font s.mem
  index_in_range : s.I.toNat ≤ 0x0FFF
  pc_in_range : s.pc.toNat ≤ 0x1002
  stack_entries_in_range : ∀ a ∈ s.stack, 2 ≤ a.toNat ∧ a.toNat ≤ 0x1000
  stack_within_depth : ∀ d, s.cfg.stackDepth = some d → s.sp ≤ d

/-- The fault record of a halted machine names the `pc` and the cycle count the machine still has (R206). -/
def State.RecordMatches (s : State) : Prop :=
  ∀ f, s.run = .halted f → f.pc = s.pc ∧ f.cycles = s.cycles

/-- A run of `k` steps in which no step stops or reaches Halted. A halted machine has gone wrong (R208). -/
def safeFor : Nat → State → Prop
  | 0, s => s.isHalted = false
  | k + 1, s => s.isHalted = false ∧ ∃ t, step s = .next t ∧ safeFor k t

/-! ## Illegal words -/

/-- The seven regions of illegal words (R65), written from the table's own columns. -/
def IllegalWord (w : Word) : Prop :=
  (w.toNat / 0x1000 = 0x0 ∧ w.toNat ≠ 0x00E0 ∧ w.toNat ≠ 0x00EE) ∨
  w.toNat / 0x1000 = 0x5 ∨
  (w.toNat / 0x1000 = 0x8 ∧ w.toNat % 16 ∉ [0x0, 0x2, 0x4, 0x5]) ∨
  (w.toNat / 0x1000 = 0x9 ∧ w.toNat % 16 ≠ 0) ∨
  w.toNat / 0x1000 = 0xB ∨
  (w.toNat / 0x1000 = 0xE ∧ w.toNat % 256 ∉ [0x9E, 0xA1]) ∨
  (w.toNat / 0x1000 = 0xF ∧ w.toNat % 256 ∉ [0x07, 0x0A, 0x15, 0x18, 0x1E, 0x29, 0x33, 0x65])

/-! ## What changed and what did not -/

/-- Every byte of memory reads as before. -/
def SameMemory (s t : State) : Prop := ∀ a, t.memRead a = s.memRead a

/-- `t` is `s` but for `pc`, which is `target`. -/
def OnlyPc (s t : State) (target : Word) : Prop :=
  t = { s with pc := target } ∧ SameMemory s t

/-- `t` is `s` but for `V[x] = v` and `pc + 2`. -/
def OnlyRegister (s t : State) (x : Reg) (v : Byte) : Prop :=
  t = { s with V := t.V, pc := s.pc + 2 } ∧ t.readV x = v ∧ (∀ k, k ≠ x → t.readV k = s.readV k) ∧ SameMemory s t

/-- `t` is `s` halted with a fault of this kind: nothing the instruction computes is written (R83). -/
def Faulted (s t : State) (kind : Fault) : Prop :=
  t = { s with run := t.run } ∧ (∃ f, t.run = .halted f ∧ f.kind = kind) ∧ SameMemory s t

/-- The registers an instruction may write when it completes (R10, R11). -/
def destination (i : Instr) (k : Reg) : Prop :=
  match i with
  | .cls | .ret | .jp _ | .call _ | .seImm _ _ | .sneImm _ _ | .sneReg _ _ | .ldI _ | .skp _ | .sknp _
  | .ldVxK _ | .ldDTVx _ | .ldSTVx _ | .addI _ | .ldF _ | .ldB _ => False
  | .ldImm x _ | .addImm x _ | .ldReg x _ | .andReg x _ | .rnd x _ | .ldVxDT x => k = x
  | .addReg x _ | .subReg x _ => k = x ∨ k = regVF
  | .drw _ _ _ => k = regVF
  | .ldVxMem x => k ≤ x

/-- The sprite pixel that falls on framebuffer pixel `(px, py)` when the bytes are drawn at `(x0, y0)`: some column
offset below 8 and some row offset below the number of bytes reach it with a set bit (R162). -/
def SpriteCovers (x0 y0 : Nat) (bytes : List Byte) (px : Fin 64) (py : Fin 32) : Prop :=
  ∃ k col b, bytes[k]? = some b ∧ col < 8 ∧ b.getLsbD (7 - col) = true ∧
    (x0 + col) % 64 = px.val ∧ (y0 + k) % 32 = py.val

end Sys2Proof.Machine
end

