-- ==== Sys2Proof/Certificates/Slice0/Obligations.lean ====
section
/-! DEFINITION. The statements about the machine, each from the spec's numbered rules. A statement that rests on a
decision of the spec (92_eei_decisions.md) or on a choice of the model says so in its docstring and in
OBLIGATIONS.json. -/

open Sys2Proof Sys2Proof.Machine

/-! ## Encoding -/

/-- Sanity: words written out from the patterns of R63 decode to the instruction they stand for, and two words of the
illegal regions do not. That 0x9121 is refused rests on the exact match of the patterns, the spec's decision D22
(log 23). -/
def Obligations.WrittenOutWordsDecode : Prop :=
  decodeWord 0x00E0 = .ok .cls ∧ decodeWord 0x1206 = .ok (.jp 0x206) ∧ decodeWord 0x6A2F = .ok (.ldImm 10 0x2F) ∧
  decodeWord 0x8124 = .ok (.addReg 1 2) ∧ decodeWord 0xD125 = .ok (.drw 1 2 5) ∧ decodeWord 0xE19E = .ok (.skp 1) ∧
  decodeWord 0xF265 = .ok (.ldVxMem 2) ∧ decodeWord 0x9121 = .error (.illegalGroup9 0x9121) ∧
  decodeWord 0x0000 = .error (.illegalGroup0 0x0000)

/-- R62, R63: every instruction is read back from its word, and from its bytes whatever stands after them
(byte order: the spec's decision D1, log 9). -/
def Obligations.DecodeOfEncodeIsTheInstruction : Prop :=
  ∀ (i : Instr) (rest : List Byte),
    decodeWord (encode i) = .ok i ∧ decode (encodeBytes i ++ rest) = .ok (i, rest)

/-- R63: a word has one meaning: the instruction read from it has that word, so decoding drops no bit. It
holds because every fixed digit of a pattern must match, the spec's decision D22 (log 23). -/
def Obligations.EncodeOfDecodeIsTheWord : Prop :=
  ∀ (w : Word) (i : Instr), decodeWord w = .ok i → encode i = w

/-- R65 (derived in the spec; the exact match is its decision D22): the words the decoder refuses are exactly those of
the seven regions. -/
def Obligations.RefusedWordsAreTheSevenRegions : Prop :=
  ∀ w : Word, (∃ e, decodeWord w = .error e) ↔ IllegalWord w

/-- R64 (derived in the spec): no word selects two rows of the opcode map. -/
def Obligations.NoWordSelectsTwoRows : Prop :=
  ∀ (w : Word), ∀ r ∈ opcodeRows, ∀ q ∈ opcodeRows, r.selects w = true → q.selects w = true →
    r.value = q.value ∧ r.mask = q.mask

/-! ## The cycle -/

/-- R81: when the bytes at `pc` decode to `i`, a cycle in Running is `exec i`, with the count of the cycle after it; a
step delivers the `Cycle(r)` its schedule names, or, with an empty schedule, one with the model's free random byte
(log 3, log 4). The byte order is the spec's decision D1 (log 9). -/
def Obligations.StepRunsTheDecodedInstruction : Prop :=
  ∀ (s : State) (i : Instr) (hi lo : Byte), s.run = .running →
    s.memRead s.pc.toNat = .ok hi → s.memRead (s.pc.toNat + 1) = .ok lo → decode [hi, lo] = .ok (i, []) →
    (∀ r, cycle r s = finishCycle (exec i { s with random := r })) ∧
    (∀ r rest, s.schedule = .cycle r :: rest →
      step s = finishCycle (exec i { s with random := r, schedule := rest })) ∧
    (s.schedule = [] →
      step s = finishCycle (exec i { s with random := Config.randomByte s.draws, draws := s.draws + 1 }))

/-- R209, R206 (decisions D3, D8, D16, D17): a fetch past 0x0FFE is MemoryOutOfRange whatever memory holds, an illegal
word at a legal `pc` is UnknownOpcode, and the record holds `pc` and the cycle count from before. The second clause also
rests on the byte order, decision D1 (log 9), and on the exact match of the patterns, decision D22 (log 23). -/
def Obligations.FetchAndDispatchFaultsInOrder : Prop :=
  ∀ (r : Byte) (s : State), s.run = .running →
    (s.pc.toNat > 0x0FFE → ∃ t, cycle r s = .next t ∧
      t = { s with random := r, run := .halted ⟨.memoryOutOfRange, s.pc, s.cycles⟩ }) ∧
    (∀ hi lo, s.memRead s.pc.toNat = .ok hi → s.memRead (s.pc.toNat + 1) = .ok lo → IllegalWord (hi ++ lo) →
      ∃ t, cycle r s = .next t ∧
        t = { s with random := r, run := .halted ⟨.unknownOpcode, s.pc, s.cycles⟩ })

/-- R85, R86: a cycle in WaitingForKey and in Halted changes nothing at all; and a wait does not stop the timers (R186,
the spec's decision D12, log 17). -/
def Obligations.CyclesWhileNotRunningDoNothing : Prop :=
  (∀ (r : Byte) (s : State) (w : Reg), s.run = .waitingForKey w → deliver (.cycle r) s = .next s) ∧
  (∀ (r : Byte) (s : State) (f : FaultRecord), s.run = .halted f → deliver (.cycle r) s = .next s) ∧
  (∀ (s : State) (w : Reg), s.run = .waitingForKey w → ∃ t, deliver .tick s = .next t ∧
    t.DT.toNat = s.DT.toNat - 1 ∧ t.ST.toNat = s.ST.toNat - 1)

/-- 95_test_vectors.md section 6, 7 (from R83, R84; decisions D8, D17): a cycle in Running either raises a fault and
changes only `run` with its fault record, or completes and adds exactly 1 to `cycles`. (`random` is the model's own.) -/
def Obligations.RunningCycleCompletesOrChangesNothing : Prop :=
  ∀ (r : Byte) (s : State), s.run = .running → ∃ t, cycle r s = .next t ∧
    ((∃ kind, t = { s with random := r, run := .halted ⟨kind, s.pc, s.cycles⟩ }) ∨
     (t.isHalted = false ∧ t.cycles = s.cycles + 1))

/-- 95_test_vectors.md section 6, 1 to 3 (from R12, R13, R14; decision D7): every step, whatever event it delivers,
keeps the invariant of the machine. -/
def Obligations.StepKeepsTheMachineInvariant : Prop :=
  ∀ s t : State, s.Inv → step s = .next t → t.Inv

/-- The reset state meets the invariant and names no fault: it has no record (R240; `run` at reset is the spec's decision
D13, log 7), so its record matches. -/
def Obligations.ResetMeetsTheMachineInvariant : Prop :=
  State.reset.Inv ∧ State.reset.RecordMatches ∧ State.reset.faultRecord = none

/-- R206, R208 (decisions D16, D17, D18): the record of a halted machine keeps naming the `pc` and the cycle count the
machine has, since nothing but a new `Construct` changes them in Halted. -/
def Obligations.StepKeepsTheFaultRecordInStep : Prop :=
  ∀ s t : State, s.RecordMatches → step s = .next t → t.RecordMatches

/-- R91 (decisions D11, D18): the transition table of `run`: what leaves each run state, and that WaitingForKey is
entered only by FX0A. -/
def Obligations.RunStateFollowsTheTransitionTable : Prop :=
  ∀ (e : Event) (s t : State), deliver e s = .next t →
    (∀ f, s.run = .halted f → t.run = .halted f ∨ ∃ rom, e = .construct rom) ∧
    (∀ w, s.run = .waitingForKey w → t.run = .waitingForKey w ∨ (∃ id, e = .keyEvent id true) ∨ ∃ rom, e = .construct rom) ∧
    (s.run = .running → t.run = .running ∨ ∃ r, e = .cycle r) ∧
    (∀ rom, e = .construct rom → t.run = .running) ∧
    (∀ w id, s.run = .waitingForKey w → e = .keyEvent id true → t.run = .running) ∧
    (∀ x, t.run = .waitingForKey x → s.run = .waitingForKey x ∨
      ∃ r w, e = .cycle r ∧ s.run = .running ∧ s.fetch = .ok w ∧ decodeWord w = .ok (.ldVxK x))

/-- R208, R91 (decision D18): in Halted an event other than a new `Construct` changes at most `keys` and `dirty`, which
collaborators own; `Cycle` and `Tick` change nothing. -/
def Obligations.HaltedIsTerminal : Prop :=
  ∀ (e : Event) (s t : State) (f : FaultRecord), s.run = .halted f → deliver e s = .next t →
    (∀ rom, e ≠ .construct rom) →
    t = { s with keys := t.keys, dirty := t.dirty } ∧ ((∃ r, e = .cycle r) ∨ e = .tick → t = s)

/-- The model's convention (log 1, log 18): a step answers a next state, and stops only where the loader refuses a ROM of
more than 3584 bytes (R219, R241, decision D14). -/
def Obligations.StepStopsOnlyOnAnOverlongRom : Prop :=
  ∀ s : State,
    ((∀ rom, s.nextEvent = .construct rom → rom.length ≤ 3584) → ∃ t, step s = .next t) ∧
    (∀ rom, s.nextEvent = .construct rom → rom.length > 3584 → step s = .refused .romTooLong)

/-! ## Events -/

/-- R186 (decisions D12, D18): a tick takes each timer one toward 0 and never below it, and changes nothing else; in
Halted it changes nothing. -/
def Obligations.TickCountsTimersDown : Prop :=
  ∀ s : State, ∃ t, deliver .tick s = .next t ∧
    (s.isHalted = true → t = s) ∧
    (s.isHalted = false → t = { s with DT := t.DT, ST := t.ST } ∧
      t.DT.toNat = s.DT.toNat - 1 ∧ t.ST.toNat = s.ST.toNat - 1)

/-- R187, R188 (decision D11): a key event writes its flag in every run state; a press ends a key wait by writing the id
into the latched register; nothing else changes. -/
def Obligations.KeyEventWritesItsFlagAndEndsAWait : Prop :=
  ∀ (s : State) (id : KeyId) (pressed : Bool), ∃ t, deliver (.keyEvent id pressed) s = .next t ∧
    t.keyDown id = pressed ∧ (∀ k, k ≠ id → t.keyDown k = s.keyDown k) ∧
    (∀ w, s.run = .waitingForKey w → pressed = true →
      t = { s with keys := t.keys, V := t.V, run := .running } ∧
      (t.readV w).toNat = id.val ∧ ∀ k, k ≠ w → t.readV k = s.readV k) ∧
    ((∀ w, s.run ≠ .waitingForKey w) ∨ pressed = false → t = { s with keys := t.keys })

/-- R165: `FrameAck` clears `dirty` in every run state and changes nothing else. -/
def Obligations.FrameAckClearsDirtyOnly : Prop :=
  ∀ s : State, deliver .frameAck s = .next { s with dirty := false }

/-- R16: the reset image: 4096 bytes, 0 but for the font table (whatever `FONT` is) and the ROM at 0x200. That a ROM of
exactly 3584 bytes is loaded is the spec's decision D14 (log 18); that `Construct` keeps the parameters `cfg` is the
model's choice (log 15). -/
def Obligations.ConstructLoadsTheResetImage : Prop :=
  ∀ (s : State) (rom : List Byte), rom.length ≤ 3584 → ∃ t, deliver (.construct rom) s = .next t ∧
    t.cfg = s.cfg ∧
    (∀ (a : Nat) (h : a < 80), t.memRead a = .ok (s.cfg.font[a])) ∧
    (∀ (k : Nat) (h : k < rom.length), t.memRead (0x200 + k) = .ok rom[k]) ∧
    (∀ a, 80 ≤ a → a ≤ 0x0FFF → (a < 0x200 ∨ 0x200 + rom.length ≤ a) → t.memRead a = .ok 0) ∧
    (∀ a, a > 0x0FFF → t.memRead a = .error .memoryOutOfRange)

/-- R240 to R242 (decisions D13, D14, D17): every other piece of state after `Construct`, the outputs, the refusal of a
longer ROM, and that `State.reset` is that machine with an empty ROM and the default parameters (log 5, 6, 7).
That it keeps `draws` and `schedule` is the model's choice (log 15). -/
def Obligations.ConstructResetsEverythingElse : Prop :=
  (∀ (s : State) (rom : List Byte), rom.length ≤ 3584 → ∃ t, deliver (.construct rom) s = .next t ∧
    (∀ x, t.readV x = 0) ∧ t.I = 0 ∧ t.pc = 0x0200 ∧ t.stack = [] ∧ t.sp = 0 ∧ t.DT = 0 ∧ t.ST = 0 ∧
    (∀ x y, pixel t.fb x y = false) ∧ t.dirty = false ∧ (∀ k, t.keyDown k = false) ∧ t.run = .running ∧ t.cycles = 0 ∧
    t.tone = false ∧ t.faultRecord = none ∧ t.faultCode = 0 ∧ t.draws = s.draws ∧ t.schedule = s.schedule) ∧
  (∀ (s : State) (rom : List Byte), rom.length > 3584 → deliver (.construct rom) s = .refused .romTooLong) ∧
  (∀ s : State, s.cfg = Config.default → s.draws = 0 → s.schedule = [] → deliver (.construct []) s = .next State.reset)

/-! ## Memory -/

/-- R42: a store in range writes that byte and no other, out of range it raises MemoryOutOfRange, every address is
writable, and of all instructions only FX33 writes memory. -/
def Obligations.StoreWritesOneByteAndOnlyLdBStores : Prop :=
  (∀ (s : State) (a : Nat) (v : Byte), a > 0x0FFF → s.memWrite a v = .error .memoryOutOfRange) ∧
  (∀ (s : State) (a : Nat) (v : Byte), a ≤ 0x0FFF → ∃ t, s.memWrite a v = .ok t ∧ t = { s with mem := t.mem } ∧
    t.memRead a = .ok v ∧ ∀ b, b ≠ a → t.memRead b = s.memRead b) ∧
  (∀ (i : Instr) (s t : State), (∀ x, i ≠ .ldB x) → exec i s = .next t → t.mem = s.mem ∧ SameMemory s t)

/-- R41: the two read primitives and their faults; the byte at the lower address is the high half (the
spec's decision D1, log 9). -/
def Obligations.ReadsAreCheckedAndBigEndian : Prop :=
  ∀ (s : State) (a : Nat),
    (a > 0x0FFF → s.memRead a = .error .memoryOutOfRange) ∧
    (a ≤ 0x0FFF → ∃ b, s.memRead a = .ok b) ∧
    (a + 1 > 0x0FFF → s.memReadWord a = .error .memoryOutOfRange) ∧
    (∀ hi lo, s.memRead a = .ok hi → s.memRead (a + 1) = .ok lo → s.memReadWord a = .ok (hi ++ lo))

/-- R50 (derived in the spec): a store by FX33 is seen by the very next fetch: the fetched word is put together from the
digits where the store covers it and from the old bytes where it does not
(byte order: the spec's decision D1, log 9). -/
def Obligations.FetchSeesTheStoreBeforeIt : Prop :=
  ∀ (s : State) (x : Reg) (old : Nat → Byte), s.dataAddr 2 ≤ 0x0FFF → s.pc.toNat + 3 ≤ 0x0FFF →
    (∀ a, a ≤ 0x0FFF → s.memRead a = .ok (old a)) →
    ∃ t, exec (.ldB x) s = .next t ∧ t.fetch =
      .ok ((if s.I.toNat ≤ s.pc.toNat + 2 then ((bcdDigits (s.readV x))[s.pc.toNat + 2 - s.I.toNat]?).getD (old (s.pc.toNat + 2))
            else old (s.pc.toNat + 2)) ++
           (if s.I.toNat ≤ s.pc.toNat + 3 then ((bcdDigits (s.readV x))[s.pc.toNat + 3 - s.I.toNat]?).getD (old (s.pc.toNat + 3))
            else old (s.pc.toNat + 3)))

/-! ## Control flow -/

/-- R100: RET pops the last return address into `pc` as it is, one past 0x0FFE faults at the next fetch; on an empty
stack it is StackUnderflow and nothing is written. -/
def Obligations.RetPopsThePc : Prop :=
  (∀ (s : State) (a : Word) (rest : List Word), s.stack = a :: rest → ∃ t, exec .ret s = .next t ∧
    t = { s with stack := rest, pc := a } ∧ t.sp + 1 = s.sp ∧ SameMemory s t ∧
    (a.toNat > 0x0FFE → t.fetch = .error .memoryOutOfRange)) ∧
  (∀ s : State, s.stack = [] → ∃ t, exec .ret s = .next t ∧ Faulted s t .stackUnderflow)

/-- R101: JP writes `NNN` to `pc`, odd or past 0x0FFE too (then the next fetch faults), and nothing else. -/
def Obligations.JpSetsThePc : Prop :=
  ∀ (s : State) (nnn : Addr12), ∃ t, exec (.jp nnn) s = .next t ∧ t.pc.toNat = nnn.toNat ∧ OnlyPc s t t.pc ∧
    (nnn.toNat > 0x0FFE → t.fetch = .error .memoryOutOfRange)

/-- R102: CALL pushes `pc + 2` and jumps; on a full stack of bounded depth it is StackOverflow and nothing is written;
with an unbounded stack it never faults. -/
def Obligations.CallPushesTheReturnAddress : Prop :=
  (∀ (s : State) (nnn : Addr12), s.cfg.stackDepth ≠ some s.sp → ∃ t, exec (.call nnn) s = .next t ∧
    t = { s with stack := (s.pc + 2) :: s.stack, pc := t.pc } ∧ t.pc.toNat = nnn.toNat ∧ t.sp = s.sp + 1 ∧ SameMemory s t) ∧
  (∀ (s : State) (nnn : Addr12), s.cfg.stackDepth = some s.sp → ∃ t, exec (.call nnn) s = .next t ∧
    Faulted s t .stackOverflow)

/-- R87, R102 (decision D4): from wherever a call leads, once the stack is as the call left it, RET comes back exactly to
the instruction after the call, with the caller's stack. -/
def Obligations.RetComesBackBehindTheCall : Prop :=
  ∀ (s t u : State) (nnn : Addr12), exec (.call nnn) s = .next t → s.cfg.stackDepth ≠ some s.sp → u.stack = t.stack →
    ∃ v, exec .ret u = .next v ∧ v.pc = s.pc + 2 ∧ v.stack = s.stack

/-- R103, R104, R105: the register-compare skips add 4 to `pc` when their condition holds and 2 when it does not, and
write nothing else. -/
def Obligations.CompareSkipsMoveThePcOnly : Prop :=
  (∀ (s : State) (x : Reg) (nn : Byte), ∃ t, exec (.seImm x nn) s = .next t ∧
    OnlyPc s t (if (s.readV x).toNat = nn.toNat then s.pc + 4 else s.pc + 2)) ∧
  (∀ (s : State) (x : Reg) (nn : Byte), ∃ t, exec (.sneImm x nn) s = .next t ∧
    OnlyPc s t (if (s.readV x).toNat = nn.toNat then s.pc + 2 else s.pc + 4)) ∧
  (∀ (s : State) (x y : Reg), ∃ t, exec (.sneReg x y) s = .next t ∧
    OnlyPc s t (if (s.readV x).toNat = (s.readV y).toNat then s.pc + 2 else s.pc + 4))

/-! ## Registers and arithmetic -/

/-- R120, R121, R122, R123: LD, ADD without flag, LD and AND write `V[X]` and leave VF and every other register alone. -/
def Obligations.PlainRegisterInstructionsWriteOneRegister : Prop :=
  (∀ (s : State) (x : Reg) (nn : Byte), ∃ t, exec (.ldImm x nn) s = .next t ∧ OnlyRegister s t x nn) ∧
  (∀ (s : State) (x : Reg) (nn : Byte), ∃ t, exec (.addImm x nn) s = .next t ∧ OnlyRegister s t x (t.readV x) ∧
    (t.readV x).toNat = ((s.readV x).toNat + nn.toNat) % 256) ∧
  (∀ (s : State) (x y : Reg), ∃ t, exec (.ldReg x y) s = .next t ∧ OnlyRegister s t x (s.readV y)) ∧
  (∀ (s : State) (x y : Reg), ∃ t, exec (.andReg x y) s = .next t ∧ OnlyRegister s t x (t.readV x) ∧
    ∀ b, (t.readV x).getLsbD b = ((s.readV x).getLsbD b && (s.readV y).getLsbD b))

/-- R124, R88, R89 (the case `X = 15` is the spec's decision D9, log 12): the sum modulo 256 from the operands before the
cycle, the carry in VF unless VF is the destination. -/
def Obligations.AddWritesSumAndCarry : Prop :=
  ∀ (s : State) (x y : Reg), ∃ t, exec (.addReg x y) s = .next t ∧
    t = { s with V := t.V, pc := s.pc + 2 } ∧
    (t.readV x).toNat = ((s.readV x).toNat + (s.readV y).toNat) % 256 ∧
    (x ≠ 15 → (t.readV 15).toNat = if (s.readV x).toNat + (s.readV y).toNat > 255 then 1 else 0) ∧
    (∀ k, k ≠ x → k ≠ 15 → t.readV k = s.readV k) ∧ SameMemory s t

/-- R125, R88, R89 (the case `X = 15` is the spec's decision D9, log 12): the difference `VX - VY` modulo 256 from the
operands before the cycle, the not-borrow in VF unless VF is the destination. -/
def Obligations.SubWritesDifferenceAndNotBorrow : Prop :=
  ∀ (s : State) (x y : Reg), ∃ t, exec (.subReg x y) s = .next t ∧
    t = { s with V := t.V, pc := s.pc + 2 } ∧
    ((t.readV x).toNat : Int) = ((s.readV x).toNat - (s.readV y).toNat : Int) % 256 ∧
    (x ≠ 15 → (t.readV 15).toNat = if (s.readV x).toNat < (s.readV y).toNat then 0 else 1) ∧
    (∀ k, k ≠ x → k ≠ 15 → t.readV k = s.readV k) ∧ SameMemory s t

/-- R126: RND writes the random byte of the cycle masked by `NN`, for every random byte: never a bit that `NN` has
clear, so at most `NN`. -/
def Obligations.RndMasksTheRandomByte : Prop :=
  ∀ (s : State) (r : Byte) (x : Reg) (nn : Byte), ∃ t, exec (.rnd x nn) { s with random := r } = .next t ∧
    OnlyRegister { s with random := r } t x (t.readV x) ∧
    (∀ b, (t.readV x).getLsbD b = (r.getLsbD b && nn.getLsbD b)) ∧ (t.readV x).toNat ≤ nn.toNat

/-! ## Index register and memory -/

/-- R140, R142: `LD I, NNN` and `LD F, Vx` (the register not masked) write `I` and `pc` only, and keep `I` in range. -/
def Obligations.IndexLoadsWriteI : Prop :=
  (∀ (s : State) (nnn : Addr12), ∃ t, exec (.ldI nnn) s = .next t ∧ t.I.toNat = nnn.toNat ∧ t.I.toNat ≤ 0x0FFF ∧
    t = { s with I := t.I, pc := s.pc + 2 } ∧ SameMemory s t) ∧
  (∀ (s : State) (x : Reg), ∃ t, exec (.ldF x) s = .next t ∧ t.I.toNat = (s.readV x).toNat * 5 ∧ t.I.toNat ≤ 1275 ∧
    t = { s with I := t.I, pc := s.pc + 2 } ∧ SameMemory s t)

/-- R141 (decision D7, log 11): `ADD I, Vx` adds, and faults with nothing written where the sum is above 0x0FFF. -/
def Obligations.AddIIsBoundedByMemory : Prop :=
  ∀ (s : State) (x : Reg),
    (s.I.toNat + (s.readV x).toNat ≤ 0x0FFF → ∃ t, exec (.addI x) s = .next t ∧
      t.I.toNat = s.I.toNat + (s.readV x).toNat ∧ t = { s with I := t.I, pc := s.pc + 2 } ∧ SameMemory s t) ∧
    (s.I.toNat + (s.readV x).toNat > 0x0FFF → ∃ t, exec (.addI x) s = .next t ∧ Faulted s t .memoryOutOfRange)

/-- R143: `LD B, Vx` stores the three decimal digits at the data addresses `I`, `I + 1`, `I + 2` and no other byte, and
changes nothing else but `pc`; where the range does not fit it faults and no byte is written. -/
def Obligations.LdBStoresTheDecimalDigits : Prop :=
  ∀ (s : State) (x : Reg),
    (s.dataAddr 2 ≤ 0x0FFF → ∃ t, exec (.ldB x) s = .next t ∧
      (∃ h d o, t.memRead (s.dataAddr 0) = .ok h ∧ t.memRead (s.dataAddr 1) = .ok d ∧ t.memRead (s.dataAddr 2) = .ok o ∧
        h.toNat = (s.readV x).toNat / 100 ∧ d.toNat = (s.readV x).toNat / 10 % 10 ∧ o.toNat = (s.readV x).toNat % 10) ∧
      (∀ a, a ≠ s.dataAddr 0 → a ≠ s.dataAddr 1 → a ≠ s.dataAddr 2 → t.memRead a = s.memRead a) ∧
      t = { s with mem := t.mem, pc := s.pc + 2 }) ∧
    (s.dataAddr 2 > 0x0FFF → ∃ t, exec (.ldB x) s = .next t ∧ Faulted s t .memoryOutOfRange)

/-- R144 (decision D7, log 11): `LD Vx, [I]` loads `V[0]` to `V[X]` from `I` on, leaves the registers above alone and
moves `I` by `X + 1`; where the new `I` would pass 0x0FFF it faults and nothing is written. -/
def Obligations.LdVxMemLoadsUpToVx : Prop :=
  ∀ (s : State) (x : Reg),
    (s.I.toNat + x.val + 1 ≤ 0x0FFF → ∃ t, exec (.ldVxMem x) s = .next t ∧
      (∀ k : Reg, k ≤ x → s.memRead (s.I.toNat + k.val) = .ok (t.readV k)) ∧
      (∀ k : Reg, x < k → t.readV k = s.readV k) ∧
      t.I.toNat = s.I.toNat + x.val + 1 ∧ t = { s with V := t.V, I := t.I, pc := s.pc + 2 } ∧ SameMemory s t) ∧
    (s.I.toNat + x.val + 1 > 0x0FFF → ∃ t, exec (.ldVxMem x) s = .next t ∧ Faulted s t .memoryOutOfRange)

/-! ## Display -/

/-- R160: CLS turns every pixel off and sets `dirty`; VF, memory and everything else stay. -/
def Obligations.ClsClearsEveryPixel : Prop :=
  ∀ s : State, ∃ t, exec .cls s = .next t ∧ (∀ x y, pixel t.fb x y = false) ∧ t.dirty = true ∧
    t = { s with fb := t.fb, dirty := t.dirty, pc := s.pc + 2 } ∧ SameMemory s t

/-- R161 to R164 (sprite geometry: decision D20, log 10; VF as a coordinate: R88; `N = 0`: decision D26,
log 22): DRW, loop and all, is the pixelwise XOR of the framebuffer from before the cycle with the sprite, wrapped on both axes; VF is 1 exactly
when some set pixel is under a set sprite pixel; out of range it faults and nothing is written. -/
def Obligations.DrwIsThePixelwiseXorOfTheSprite : Prop :=
  ∀ (s : State) (x y : Reg) (n : Nibble),
    (n = 0 ∨ s.I.toNat + n.toNat - 1 ≤ 0x0FFF → ∃ t bytes, exec (.drw x y n) s = .next t ∧
      bytes.length = n.toNat ∧ (∀ k b, bytes[k]? = some b → s.memRead (s.I.toNat + k) = .ok b) ∧
      (∀ px py, (pixel t.fb px py ≠ pixel s.fb px py) ↔ SpriteCovers (s.readV x).toNat (s.readV y).toNat bytes px py) ∧
      ((t.readV 15).toNat = 1 ∨ (t.readV 15).toNat = 0) ∧
      ((t.readV 15).toNat = 1 ↔ ∃ px py, pixel s.fb px py = true ∧
        SpriteCovers (s.readV x).toNat (s.readV y).toNat bytes px py) ∧
      t.dirty = true ∧ (∀ k, k ≠ 15 → t.readV k = s.readV k) ∧
      t = { s with V := t.V, fb := t.fb, dirty := t.dirty, pc := s.pc + 2 } ∧ SameMemory s t) ∧
    (n ≠ 0 → s.I.toNat + n.toNat - 1 > 0x0FFF → ∃ t, exec (.drw x y n) s = .next t ∧ Faulted s t .memoryOutOfRange)

/-- 95_test_vectors.md section 6, 8 (from R164): the same sprite drawn twice at the same place, with no other write
between, restores the framebuffer. The second draw reports a collision exactly when the first one turned some pixel on;
R161's "if the sprite has any 1 bit" says so for a first draw that met no set pixel (log 20). -/
def Obligations.DrawingTwiceRestoresTheFramebuffer : Prop :=
  ∀ (s t : State) (x y : Reg) (n : Nibble), n = 0 ∨ s.I.toNat + n.toNat - 1 ≤ 0x0FFF → exec (.drw x y n) s = .next t →
    t.readV x = s.readV x → t.readV y = s.readV y →
    ∃ u, exec (.drw x y n) t = .next u ∧ u.fb = s.fb ∧
      ((u.readV 15).toNat = 1 ↔ ∃ px py, pixel s.fb px py = false ∧ pixel t.fb px py = true)

/-! ## Keypad and timers -/

/-- R180, R181 (decision D10, log 13): the key skips look at the flag of key `V[X]`; above 15 they fault and nothing is
written. -/
def Obligations.KeySkipsFollowTheKeyFlag : Prop :=
  ∀ (s : State) (x : Reg),
    (∀ k : KeyId, (s.readV x).toNat = k.val →
      (∃ t, exec (.skp x) s = .next t ∧ OnlyPc s t (if s.keyDown k = true then s.pc + 4 else s.pc + 2)) ∧
      (∃ t, exec (.sknp x) s = .next t ∧ OnlyPc s t (if s.keyDown k = true then s.pc + 2 else s.pc + 4))) ∧
    ((s.readV x).toNat > 15 →
      (∃ t, exec (.skp x) s = .next t ∧ Faulted s t .keyIdOutOfRange) ∧
      (∃ t, exec (.sknp x) s = .next t ∧ Faulted s t .keyIdOutOfRange))

/-- R182, R183, R184: the timer moves, and the output `tone` at once. -/
def Obligations.TimerMovesCopyTheValue : Prop :=
  (∀ (s : State) (x : Reg), ∃ t, exec (.ldVxDT x) s = .next t ∧ OnlyRegister s t x s.DT) ∧
  (∀ (s : State) (x : Reg), ∃ t, exec (.ldDTVx x) s = .next t ∧
    t = { s with DT := s.readV x, pc := s.pc + 2 } ∧ SameMemory s t) ∧
  (∀ (s : State) (x : Reg), ∃ t, exec (.ldSTVx x) s = .next t ∧
    t = { s with ST := s.readV x, pc := s.pc + 2 } ∧ (t.tone = true ↔ (s.readV x).toNat > 0) ∧ SameMemory s t)

/-- R185 (decision D11, log 16): FX0A enters the wait without looking at `keys`, latches `X` and moves `pc`; no register
is written by it. -/
def Obligations.KeyWaitLatchesTheRegister : Prop :=
  ∀ (s : State) (x : Reg), ∃ t, exec (.ldVxK x) s = .next t ∧
    t = { s with run := .waitingForKey x, pc := s.pc + 2 } ∧ SameMemory s t

/-! ## The whole instruction set -/

/-- R10, R11, R90 (decision D27): no instruction, whether it completes or faults, changes a register other than its
destinations. -/
def Obligations.InstructionsWriteOnlyTheirDestinations : Prop :=
  ∀ (i : Instr) (s t : State) (k : Reg), exec i s = .next t → ¬ destination i k → t.readV k = s.readV k

/-- R29, R90 (decision D27): which instruction may write which piece of the other state; keys, the cycle counter, the
parameters and the outside's schedule are written by none. -/
def Obligations.SpecialStateIsWrittenByItsInstructionsOnly : Prop :=
  ∀ (i : Instr) (s t : State), exec i s = .next t →
    (t.I ≠ s.I → (∃ nnn, i = .ldI nnn) ∨ (∃ x, i = .addI x ∨ i = .ldF x ∨ i = .ldVxMem x)) ∧
    (t.stack ≠ s.stack → i = .ret ∨ ∃ nnn, i = .call nnn) ∧
    (t.DT ≠ s.DT → ∃ x, i = .ldDTVx x) ∧
    (t.ST ≠ s.ST → ∃ x, i = .ldSTVx x) ∧
    (t.fb ≠ s.fb ∨ t.dirty ≠ s.dirty → i = .cls ∨ ∃ x y n, i = .drw x y n) ∧
    (t.run ≠ s.run → t.isHalted = true ∨ ∃ x, i = .ldVxK x) ∧
    t.keys = s.keys ∧ t.cycles = s.cycles ∧ t.cfg = s.cfg ∧ t.random = s.random ∧ t.draws = s.draws ∧ t.schedule = s.schedule

/-- R93 (decision D19): only RND uses the random byte of the cycle. -/
def Obligations.OnlyRndSeesTheRandomByte : Prop :=
  ∀ (i : Instr) (s t : State) (r : Byte), (∀ x nn, i ≠ .rnd x nn) → exec i s = .next t →
    exec i { s with random := r } = .next { t with random := r }

/-- R30 (derived in the spec): a program cannot observe `ST`, `dirty`, `cycles`: two machines that differ only there run
every instruction to states that agree on everything a program can observe, and halt on the same faults. -/
def Obligations.ProgramsCannotObserveSoundDirtyAndCycles : Prop :=
  ∀ (i : Instr) (s t : State) (st : Byte) (d : Bool) (n : Nat), exec i s = .next t →
    ∃ u, exec i { s with ST := st, dirty := d, cycles := n } = .next u ∧
      u = { t with ST := u.ST, dirty := u.dirty, cycles := u.cycles, run := u.run } ∧
      (∀ f, t.run = .halted f → s.run ≠ .halted f → ∃ g, u.run = .halted g ∧ g.kind = f.kind ∧ g.pc = f.pc) ∧
      (t.isHalted = false → u.run = t.run)

/-- 95_test_vectors.md section 6, 6 (from R183, R184, R186; decisions D12, D18, log 17): a step makes `DT` larger only by running FX15, and `ST` only
by running FX18. -/
def Obligations.TimersRiseOnlyByTheirLoads : Prop :=
  ∀ s t : State, step s = .next t →
    (t.DT.toNat > s.DT.toNat → s.run = .running ∧
      ∃ r w x, s.nextEvent = .cycle r ∧ s.fetch = .ok w ∧ decodeWord w = .ok (.ldDTVx x)) ∧
    (t.ST.toNat > s.ST.toNat → s.run = .running ∧
      ∃ r w x, s.nextEvent = .cycle r ∧ s.fetch = .ok w ∧ decodeWord w = .ok (.ldSTVx x))
end

