-- ==== Sys2Proof/Laws/State.lean ====
section
/-! SUPPORT. One lemma per field and per named update of State, each true by definition, so that no later proof unfolds a
record update; and the register file read after a write. -/

namespace Sys2Proof.Machine

/-! ## Registers read after a write -/

@[simp] theorem readV_writeV_same (s : State) (x : Reg) (v : Byte) : (s.writeV x v).readV x = v := by
  simp [State.readV, State.writeV]

theorem readV_writeV (s : State) (x k : Reg) (v : Byte) :
    (s.writeV x v).readV k = if k = x then v else s.readV k := by
  by_cases h : k = x
  · subst h; simp
  · have : x.val ≠ k.val := fun e => h (Fin.ext e.symm)
    simp [State.readV, State.writeV, h, this]

@[simp] theorem readV_writeV_ne (s : State) {x k : Reg} (v : Byte) (h : k ≠ x) :
    (s.writeV x v).readV k = s.readV k := by simp [readV_writeV, h]

@[simp] theorem readV_setPc (s : State) (a : Word) (k : Reg) : (s.setPc a).readV k = s.readV k := rfl
@[simp] theorem readV_advance (s : State) (k : Reg) : s.advance.readV k = s.readV k := rfl
@[simp] theorem readV_takeFault (s : State) (f : Fault) (k : Reg) : (s.takeFault f).readV k = s.readV k := rfl

/-! ## A register written -/

@[simp] theorem writeV_V (s : State) (x : Reg) (v : Byte) : (s.writeV x v).V = s.V.set x v := rfl
@[simp] theorem writeV_I (s : State) (x : Reg) (v : Byte) : (s.writeV x v).I = s.I := rfl
@[simp] theorem writeV_pc (s : State) (x : Reg) (v : Byte) : (s.writeV x v).pc = s.pc := rfl
@[simp] theorem writeV_stack (s : State) (x : Reg) (v : Byte) : (s.writeV x v).stack = s.stack := rfl
@[simp] theorem writeV_DT (s : State) (x : Reg) (v : Byte) : (s.writeV x v).DT = s.DT := rfl
@[simp] theorem writeV_ST (s : State) (x : Reg) (v : Byte) : (s.writeV x v).ST = s.ST := rfl
@[simp] theorem writeV_mem (s : State) (x : Reg) (v : Byte) : (s.writeV x v).mem = s.mem := rfl
@[simp] theorem writeV_fb (s : State) (x : Reg) (v : Byte) : (s.writeV x v).fb = s.fb := rfl
@[simp] theorem writeV_dirty (s : State) (x : Reg) (v : Byte) : (s.writeV x v).dirty = s.dirty := rfl
@[simp] theorem writeV_keys (s : State) (x : Reg) (v : Byte) : (s.writeV x v).keys = s.keys := rfl
@[simp] theorem writeV_run (s : State) (x : Reg) (v : Byte) : (s.writeV x v).run = s.run := rfl
@[simp] theorem writeV_cycles (s : State) (x : Reg) (v : Byte) : (s.writeV x v).cycles = s.cycles := rfl
@[simp] theorem writeV_cfg (s : State) (x : Reg) (v : Byte) : (s.writeV x v).cfg = s.cfg := rfl
@[simp] theorem writeV_random (s : State) (x : Reg) (v : Byte) : (s.writeV x v).random = s.random := rfl
@[simp] theorem writeV_draws (s : State) (x : Reg) (v : Byte) : (s.writeV x v).draws = s.draws := rfl
@[simp] theorem writeV_schedule (s : State) (x : Reg) (v : Byte) : (s.writeV x v).schedule = s.schedule := rfl

/-! ## The flag written -/

@[simp] theorem writeFlag_V (s : State) (b : Bool) : (s.writeFlag b).V = s.V.set regVF (flagByte b) := rfl
@[simp] theorem writeFlag_I (s : State) (b : Bool) : (s.writeFlag b).I = s.I := rfl
@[simp] theorem writeFlag_pc (s : State) (b : Bool) : (s.writeFlag b).pc = s.pc := rfl
@[simp] theorem writeFlag_stack (s : State) (b : Bool) : (s.writeFlag b).stack = s.stack := rfl
@[simp] theorem writeFlag_DT (s : State) (b : Bool) : (s.writeFlag b).DT = s.DT := rfl
@[simp] theorem writeFlag_ST (s : State) (b : Bool) : (s.writeFlag b).ST = s.ST := rfl
@[simp] theorem writeFlag_mem (s : State) (b : Bool) : (s.writeFlag b).mem = s.mem := rfl
@[simp] theorem writeFlag_fb (s : State) (b : Bool) : (s.writeFlag b).fb = s.fb := rfl
@[simp] theorem writeFlag_dirty (s : State) (b : Bool) : (s.writeFlag b).dirty = s.dirty := rfl
@[simp] theorem writeFlag_keys (s : State) (b : Bool) : (s.writeFlag b).keys = s.keys := rfl
@[simp] theorem writeFlag_run (s : State) (b : Bool) : (s.writeFlag b).run = s.run := rfl
@[simp] theorem writeFlag_cycles (s : State) (b : Bool) : (s.writeFlag b).cycles = s.cycles := rfl
@[simp] theorem writeFlag_cfg (s : State) (b : Bool) : (s.writeFlag b).cfg = s.cfg := rfl
@[simp] theorem writeFlag_random (s : State) (b : Bool) : (s.writeFlag b).random = s.random := rfl
@[simp] theorem writeFlag_draws (s : State) (b : Bool) : (s.writeFlag b).draws = s.draws := rfl
@[simp] theorem writeFlag_schedule (s : State) (b : Bool) : (s.writeFlag b).schedule = s.schedule := rfl

/-! ## The program counter written -/

@[simp] theorem setPc_V (s : State) (a : Word) : (s.setPc a).V = s.V := rfl
@[simp] theorem setPc_I (s : State) (a : Word) : (s.setPc a).I = s.I := rfl
@[simp] theorem setPc_pc (s : State) (a : Word) : (s.setPc a).pc = a := rfl
@[simp] theorem setPc_stack (s : State) (a : Word) : (s.setPc a).stack = s.stack := rfl
@[simp] theorem setPc_DT (s : State) (a : Word) : (s.setPc a).DT = s.DT := rfl
@[simp] theorem setPc_ST (s : State) (a : Word) : (s.setPc a).ST = s.ST := rfl
@[simp] theorem setPc_mem (s : State) (a : Word) : (s.setPc a).mem = s.mem := rfl
@[simp] theorem setPc_fb (s : State) (a : Word) : (s.setPc a).fb = s.fb := rfl
@[simp] theorem setPc_dirty (s : State) (a : Word) : (s.setPc a).dirty = s.dirty := rfl
@[simp] theorem setPc_keys (s : State) (a : Word) : (s.setPc a).keys = s.keys := rfl
@[simp] theorem setPc_run (s : State) (a : Word) : (s.setPc a).run = s.run := rfl
@[simp] theorem setPc_cycles (s : State) (a : Word) : (s.setPc a).cycles = s.cycles := rfl
@[simp] theorem setPc_cfg (s : State) (a : Word) : (s.setPc a).cfg = s.cfg := rfl
@[simp] theorem setPc_random (s : State) (a : Word) : (s.setPc a).random = s.random := rfl
@[simp] theorem setPc_draws (s : State) (a : Word) : (s.setPc a).draws = s.draws := rfl
@[simp] theorem setPc_schedule (s : State) (a : Word) : (s.setPc a).schedule = s.schedule := rfl

/-! ## The next instruction -/

@[simp] theorem advance_V (s : State) : (s.advance).V = s.V := rfl
@[simp] theorem advance_I (s : State) : (s.advance).I = s.I := rfl
@[simp] theorem advance_pc (s : State) : (s.advance).pc = s.pc + 2 := rfl
@[simp] theorem advance_stack (s : State) : (s.advance).stack = s.stack := rfl
@[simp] theorem advance_DT (s : State) : (s.advance).DT = s.DT := rfl
@[simp] theorem advance_ST (s : State) : (s.advance).ST = s.ST := rfl
@[simp] theorem advance_mem (s : State) : (s.advance).mem = s.mem := rfl
@[simp] theorem advance_fb (s : State) : (s.advance).fb = s.fb := rfl
@[simp] theorem advance_dirty (s : State) : (s.advance).dirty = s.dirty := rfl
@[simp] theorem advance_keys (s : State) : (s.advance).keys = s.keys := rfl
@[simp] theorem advance_run (s : State) : (s.advance).run = s.run := rfl
@[simp] theorem advance_cycles (s : State) : (s.advance).cycles = s.cycles := rfl
@[simp] theorem advance_cfg (s : State) : (s.advance).cfg = s.cfg := rfl
@[simp] theorem advance_random (s : State) : (s.advance).random = s.random := rfl
@[simp] theorem advance_draws (s : State) : (s.advance).draws = s.draws := rfl
@[simp] theorem advance_schedule (s : State) : (s.advance).schedule = s.schedule := rfl

/-! ## Fault entry -/

@[simp] theorem takeFault_V (s : State) (k : Fault) : (s.takeFault k).V = s.V := rfl
@[simp] theorem takeFault_I (s : State) (k : Fault) : (s.takeFault k).I = s.I := rfl
@[simp] theorem takeFault_pc (s : State) (k : Fault) : (s.takeFault k).pc = s.pc := rfl
@[simp] theorem takeFault_stack (s : State) (k : Fault) : (s.takeFault k).stack = s.stack := rfl
@[simp] theorem takeFault_DT (s : State) (k : Fault) : (s.takeFault k).DT = s.DT := rfl
@[simp] theorem takeFault_ST (s : State) (k : Fault) : (s.takeFault k).ST = s.ST := rfl
@[simp] theorem takeFault_mem (s : State) (k : Fault) : (s.takeFault k).mem = s.mem := rfl
@[simp] theorem takeFault_fb (s : State) (k : Fault) : (s.takeFault k).fb = s.fb := rfl
@[simp] theorem takeFault_dirty (s : State) (k : Fault) : (s.takeFault k).dirty = s.dirty := rfl
@[simp] theorem takeFault_keys (s : State) (k : Fault) : (s.takeFault k).keys = s.keys := rfl
@[simp] theorem takeFault_run (s : State) (k : Fault) : (s.takeFault k).run = .halted ⟨k, s.pc, s.cycles⟩ := rfl
@[simp] theorem takeFault_cycles (s : State) (k : Fault) : (s.takeFault k).cycles = s.cycles := rfl
@[simp] theorem takeFault_cfg (s : State) (k : Fault) : (s.takeFault k).cfg = s.cfg := rfl
@[simp] theorem takeFault_random (s : State) (k : Fault) : (s.takeFault k).random = s.random := rfl
@[simp] theorem takeFault_draws (s : State) (k : Fault) : (s.takeFault k).draws = s.draws := rfl
@[simp] theorem takeFault_schedule (s : State) (k : Fault) : (s.takeFault k).schedule = s.schedule := rfl

/-! ## A key flag written -/

@[simp] theorem setKey_V (s : State) (id : KeyId) (p : Bool) : (s.setKey id p).V = s.V := rfl
@[simp] theorem setKey_I (s : State) (id : KeyId) (p : Bool) : (s.setKey id p).I = s.I := rfl
@[simp] theorem setKey_pc (s : State) (id : KeyId) (p : Bool) : (s.setKey id p).pc = s.pc := rfl
@[simp] theorem setKey_stack (s : State) (id : KeyId) (p : Bool) : (s.setKey id p).stack = s.stack := rfl
@[simp] theorem setKey_DT (s : State) (id : KeyId) (p : Bool) : (s.setKey id p).DT = s.DT := rfl
@[simp] theorem setKey_ST (s : State) (id : KeyId) (p : Bool) : (s.setKey id p).ST = s.ST := rfl
@[simp] theorem setKey_mem (s : State) (id : KeyId) (p : Bool) : (s.setKey id p).mem = s.mem := rfl
@[simp] theorem setKey_fb (s : State) (id : KeyId) (p : Bool) : (s.setKey id p).fb = s.fb := rfl
@[simp] theorem setKey_dirty (s : State) (id : KeyId) (p : Bool) : (s.setKey id p).dirty = s.dirty := rfl
@[simp] theorem setKey_keys (s : State) (id : KeyId) (p : Bool) : (s.setKey id p).keys = s.keys.set id p := rfl
@[simp] theorem setKey_run (s : State) (id : KeyId) (p : Bool) : (s.setKey id p).run = s.run := rfl
@[simp] theorem setKey_cycles (s : State) (id : KeyId) (p : Bool) : (s.setKey id p).cycles = s.cycles := rfl
@[simp] theorem setKey_cfg (s : State) (id : KeyId) (p : Bool) : (s.setKey id p).cfg = s.cfg := rfl
@[simp] theorem setKey_random (s : State) (id : KeyId) (p : Bool) : (s.setKey id p).random = s.random := rfl
@[simp] theorem setKey_draws (s : State) (id : KeyId) (p : Bool) : (s.setKey id p).draws = s.draws := rfl
@[simp] theorem setKey_schedule (s : State) (id : KeyId) (p : Bool) : (s.setKey id p).schedule = s.schedule := rfl

/-! ## The end of a key wait -/

@[simp] theorem endWait_V (s : State) (w : Reg) (id : KeyId) : (s.endWait w id).V = s.V.set w (BitVec.ofNat 8 id.val) := rfl
@[simp] theorem endWait_I (s : State) (w : Reg) (id : KeyId) : (s.endWait w id).I = s.I := rfl
@[simp] theorem endWait_pc (s : State) (w : Reg) (id : KeyId) : (s.endWait w id).pc = s.pc := rfl
@[simp] theorem endWait_stack (s : State) (w : Reg) (id : KeyId) : (s.endWait w id).stack = s.stack := rfl
@[simp] theorem endWait_DT (s : State) (w : Reg) (id : KeyId) : (s.endWait w id).DT = s.DT := rfl
@[simp] theorem endWait_ST (s : State) (w : Reg) (id : KeyId) : (s.endWait w id).ST = s.ST := rfl
@[simp] theorem endWait_mem (s : State) (w : Reg) (id : KeyId) : (s.endWait w id).mem = s.mem := rfl
@[simp] theorem endWait_fb (s : State) (w : Reg) (id : KeyId) : (s.endWait w id).fb = s.fb := rfl
@[simp] theorem endWait_dirty (s : State) (w : Reg) (id : KeyId) : (s.endWait w id).dirty = s.dirty := rfl
@[simp] theorem endWait_keys (s : State) (w : Reg) (id : KeyId) : (s.endWait w id).keys = s.keys := rfl
@[simp] theorem endWait_run (s : State) (w : Reg) (id : KeyId) : (s.endWait w id).run = .running := rfl
@[simp] theorem endWait_cycles (s : State) (w : Reg) (id : KeyId) : (s.endWait w id).cycles = s.cycles := rfl
@[simp] theorem endWait_cfg (s : State) (w : Reg) (id : KeyId) : (s.endWait w id).cfg = s.cfg := rfl
@[simp] theorem endWait_random (s : State) (w : Reg) (id : KeyId) : (s.endWait w id).random = s.random := rfl
@[simp] theorem endWait_draws (s : State) (w : Reg) (id : KeyId) : (s.endWait w id).draws = s.draws := rfl
@[simp] theorem endWait_schedule (s : State) (w : Reg) (id : KeyId) : (s.endWait w id).schedule = s.schedule := rfl

/-! ## A skip: only `pc` moves -/

@[simp] theorem skipIf_pc (s : State) (c : Bool) : (s.skipIf c).pc = if c then s.pc + 4 else s.pc + 2 := by cases c <;> rfl

theorem skipIf_eq (s : State) (c : Bool) : s.skipIf c = s.setPc (if c then s.pc + 4 else s.pc + 2) := by cases c <;> rfl

@[simp] theorem skipIf_V (s : State) (c : Bool) : (s.skipIf c).V = s.V := by cases c <;> rfl
@[simp] theorem skipIf_I (s : State) (c : Bool) : (s.skipIf c).I = s.I := by cases c <;> rfl
@[simp] theorem skipIf_stack (s : State) (c : Bool) : (s.skipIf c).stack = s.stack := by cases c <;> rfl
@[simp] theorem skipIf_DT (s : State) (c : Bool) : (s.skipIf c).DT = s.DT := by cases c <;> rfl
@[simp] theorem skipIf_ST (s : State) (c : Bool) : (s.skipIf c).ST = s.ST := by cases c <;> rfl
@[simp] theorem skipIf_mem (s : State) (c : Bool) : (s.skipIf c).mem = s.mem := by cases c <;> rfl
@[simp] theorem skipIf_fb (s : State) (c : Bool) : (s.skipIf c).fb = s.fb := by cases c <;> rfl
@[simp] theorem skipIf_dirty (s : State) (c : Bool) : (s.skipIf c).dirty = s.dirty := by cases c <;> rfl
@[simp] theorem skipIf_keys (s : State) (c : Bool) : (s.skipIf c).keys = s.keys := by cases c <;> rfl
@[simp] theorem skipIf_run (s : State) (c : Bool) : (s.skipIf c).run = s.run := by cases c <;> rfl
@[simp] theorem skipIf_cycles (s : State) (c : Bool) : (s.skipIf c).cycles = s.cycles := by cases c <;> rfl
@[simp] theorem skipIf_cfg (s : State) (c : Bool) : (s.skipIf c).cfg = s.cfg := by cases c <;> rfl
@[simp] theorem skipIf_random (s : State) (c : Bool) : (s.skipIf c).random = s.random := by cases c <;> rfl
@[simp] theorem skipIf_draws (s : State) (c : Bool) : (s.skipIf c).draws = s.draws := by cases c <;> rfl
@[simp] theorem skipIf_schedule (s : State) (c : Bool) : (s.skipIf c).schedule = s.schedule := by cases c <;> rfl

/-! ## The count of a cycle: only `cycles` moves, and not in Halted -/

theorem countCycle_eq (s : State) : s.countCycle = { s with cycles := s.countCycle.cycles } := by
  unfold State.countCycle; split <;> rfl

@[simp] theorem countCycle_V (s : State) : s.countCycle.V = s.V := by unfold State.countCycle; split <;> rfl
@[simp] theorem countCycle_I (s : State) : s.countCycle.I = s.I := by unfold State.countCycle; split <;> rfl
@[simp] theorem countCycle_pc (s : State) : s.countCycle.pc = s.pc := by unfold State.countCycle; split <;> rfl
@[simp] theorem countCycle_stack (s : State) : s.countCycle.stack = s.stack := by unfold State.countCycle; split <;> rfl
@[simp] theorem countCycle_DT (s : State) : s.countCycle.DT = s.DT := by unfold State.countCycle; split <;> rfl
@[simp] theorem countCycle_ST (s : State) : s.countCycle.ST = s.ST := by unfold State.countCycle; split <;> rfl
@[simp] theorem countCycle_mem (s : State) : s.countCycle.mem = s.mem := by unfold State.countCycle; split <;> rfl
@[simp] theorem countCycle_fb (s : State) : s.countCycle.fb = s.fb := by unfold State.countCycle; split <;> rfl
@[simp] theorem countCycle_dirty (s : State) : s.countCycle.dirty = s.dirty := by unfold State.countCycle; split <;> rfl
@[simp] theorem countCycle_keys (s : State) : s.countCycle.keys = s.keys := by unfold State.countCycle; split <;> rfl
@[simp] theorem countCycle_run (s : State) : s.countCycle.run = s.run := by unfold State.countCycle; split <;> rfl
@[simp] theorem countCycle_cfg (s : State) : s.countCycle.cfg = s.cfg := by unfold State.countCycle; split <;> rfl
@[simp] theorem countCycle_random (s : State) : s.countCycle.random = s.random := by unfold State.countCycle; split <;> rfl
@[simp] theorem countCycle_draws (s : State) : s.countCycle.draws = s.draws := by unfold State.countCycle; split <;> rfl
@[simp] theorem countCycle_schedule (s : State) : s.countCycle.schedule = s.schedule := by unfold State.countCycle; split <;> rfl

/-! ## An event taken: only `draws` and `schedule` move -/

@[simp] theorem takeEvent_V (s : State) : s.takeEvent.V = s.V := by unfold State.takeEvent; split <;> rfl
@[simp] theorem takeEvent_I (s : State) : s.takeEvent.I = s.I := by unfold State.takeEvent; split <;> rfl
@[simp] theorem takeEvent_pc (s : State) : s.takeEvent.pc = s.pc := by unfold State.takeEvent; split <;> rfl
@[simp] theorem takeEvent_stack (s : State) : s.takeEvent.stack = s.stack := by unfold State.takeEvent; split <;> rfl
@[simp] theorem takeEvent_DT (s : State) : s.takeEvent.DT = s.DT := by unfold State.takeEvent; split <;> rfl
@[simp] theorem takeEvent_ST (s : State) : s.takeEvent.ST = s.ST := by unfold State.takeEvent; split <;> rfl
@[simp] theorem takeEvent_mem (s : State) : s.takeEvent.mem = s.mem := by unfold State.takeEvent; split <;> rfl
@[simp] theorem takeEvent_fb (s : State) : s.takeEvent.fb = s.fb := by unfold State.takeEvent; split <;> rfl
@[simp] theorem takeEvent_dirty (s : State) : s.takeEvent.dirty = s.dirty := by unfold State.takeEvent; split <;> rfl
@[simp] theorem takeEvent_keys (s : State) : s.takeEvent.keys = s.keys := by unfold State.takeEvent; split <;> rfl
@[simp] theorem takeEvent_run (s : State) : s.takeEvent.run = s.run := by unfold State.takeEvent; split <;> rfl
@[simp] theorem takeEvent_cycles (s : State) : s.takeEvent.cycles = s.cycles := by unfold State.takeEvent; split <;> rfl
@[simp] theorem takeEvent_cfg (s : State) : s.takeEvent.cfg = s.cfg := by unfold State.takeEvent; split <;> rfl
@[simp] theorem takeEvent_random (s : State) : s.takeEvent.random = s.random := by unfold State.takeEvent; split <;> rfl

end Sys2Proof.Machine
end

