-- ==== Sys2Proof/Laws/Memory.lean ====
section
/-! SUPPORT. The laws of memory: a read after a write, the canonical form and that every memory operation keeps it, and
for each access primitive of 20_memory.md one lemma that says everything it can do. -/

namespace Sys2Proof.Machine

/-! ## The list -/

theorem lookup_erase (m : Memory) (a b : Nat) :
    Memory.lookup (Memory.erase m a) b = if b = a then none else Memory.lookup m b := by
  induction m with
  | nil => simp [Memory.erase, Memory.lookup]
  | cons c rest ih =>
    obtain ⟨d, v⟩ := c
    simp only [Memory.erase] at ih ⊢
    by_cases hd : d = a
    · subst hd
      simp only [List.filter_cons, bne_self_eq_false, Bool.false_eq_true, if_false, ih, Memory.lookup]
      split <;> simp_all
    · simp only [List.filter_cons, bne_iff_ne, ne_eq, hd, not_false_eq_true, if_true, Memory.lookup, ih]
      by_cases hb : b = d
      · simp [hb, hd]
      · simp [hb]

theorem lookup_insert (m : Memory) (a b : Nat) (v : Byte) (h : Memory.lookup m a = none) :
    Memory.lookup (Memory.insert m a v) b = if b = a then some v else Memory.lookup m b := by
  induction m with
  | nil => simp [Memory.insert, Memory.lookup]
  | cons c rest ih =>
    obtain ⟨d, u⟩ := c
    have hd : a ≠ d := by rintro rfl; simp [Memory.lookup] at h
    have hr : Memory.lookup rest a = none := by simpa [Memory.lookup, hd] using h
    by_cases hl : a < d
    · simp [Memory.insert, hl, Memory.lookup]
    · simp only [Memory.insert, hl, if_false, Memory.lookup, ih hr]
      by_cases hb : b = d
      · simp [hb, Ne.symm hd]
      · simp [hb]

/-- A read after a write: the value at that address, the old byte everywhere else. -/
@[simp] theorem get_set (font : Vector Byte 80) (m : Memory) (a b : Nat) (v : Byte) :
    Memory.get font (Memory.set font m a v) b = if b = a then v else Memory.get font m b := by
  unfold Memory.get Memory.set
  by_cases hv : v = imageByte font a
  · simp only [hv, if_true, lookup_erase]
    by_cases hb : b = a <;> simp [hb]
  · simp only [hv, if_false]
    rw [lookup_insert _ _ _ _ (by simp [lookup_erase]), lookup_erase]
    by_cases hb : b = a <;> simp [hb]

@[simp] theorem get_nil (font : Vector Byte 80) (a : Nat) : Memory.get font [] a = imageByte font a := rfl

/-! ## The canonical form -/

theorem wf_nil (font : Vector Byte 80) : Memory.wf font [] := by simp [Memory.wf]

theorem erase_keeps_wf {font : Vector Byte 80} {m : Memory} (a : Nat) (h : Memory.wf font m) :
    Memory.wf font (Memory.erase m a) := by
  refine ⟨h.1.sublist (List.filter_sublist.map _), fun c hc => h.2 c (List.mem_of_mem_filter hc)⟩

theorem mem_insert {m : Memory} {a : Nat} {v : Byte} {c : Host.Cell} (h : c ∈ Memory.insert m a v) :
    c = (a, v) ∨ c ∈ m := by
  induction m with
  | nil => simpa [Memory.insert] using h
  | cons d rest ih =>
    obtain ⟨b, u⟩ := d
    unfold Memory.insert at h
    split at h
    · simpa using h
    · rcases List.mem_cons.1 h with rfl | h
      · simp
      · rcases ih h with h | h <;> simp [h]

theorem insert_rises {m : Memory} {a : Nat} {v : Byte} (ha : ∀ c ∈ m, c.1 ≠ a)
    (h : (m.map Prod.fst).Pairwise (· < ·)) : ((Memory.insert m a v).map Prod.fst).Pairwise (· < ·) := by
  induction m with
  | nil => simp [Memory.insert]
  | cons d rest ih =>
    obtain ⟨b, u⟩ := d
    simp only [List.map_cons, List.pairwise_cons] at h
    unfold Memory.insert
    split
    · rename_i hlt
      simp only [List.map_cons, List.pairwise_cons]
      refine ⟨fun c hc => ?_, h⟩
      rcases List.mem_cons.1 hc with rfl | hc
      · exact hlt
      · exact hlt.trans (h.1 c hc)
    · rename_i hlt
      have hb : b ≠ a := ha (b, u) (by simp)
      simp only [List.map_cons, List.pairwise_cons]
      refine ⟨fun c hc => ?_, ih (fun c hc => ha c (by simp [hc])) h.2⟩
      obtain ⟨e, he, rfl⟩ := List.mem_map.1 hc
      rcases mem_insert he with rfl | he
      · show b < a; omega
      · exact h.1 _ (List.mem_map_of_mem he)

/-- Every write inside memory keeps the canonical form. -/
theorem set_keeps_wf {font : Vector Byte 80} {m : Memory} {a : Nat} {v : Byte} (ha : a < memSize)
    (h : Memory.wf font m) : Memory.wf font (Memory.set font m a v) := by
  have he := erase_keeps_wf a h
  unfold Memory.set
  split
  · exact he
  · rename_i hv
    refine ⟨insert_rises (fun c hc => ?_) he.1, fun c hc => ?_⟩
    · simpa [Memory.erase] using (List.mem_filter.1 hc).2
    · rcases mem_insert hc with rfl | hc
      · exact ⟨ha, hv⟩
      · exact he.2 c hc

theorem loadBytes_keeps_wf {font : Vector Byte 80} (bs : List Byte) {m : Memory} {a : Nat}
    (ha : a + bs.length ≤ memSize) (h : Memory.wf font m) : Memory.wf font (loadBytes font m a bs) := by
  induction bs generalizing m a with
  | nil => exact h
  | cons b bs ih =>
    simp only [List.length_cons] at ha
    exact ih (by omega) (set_keeps_wf (by omega) h)

/-- The image a load leaves: the bytes from `a` on, the old byte everywhere else. -/
theorem get_loadBytes (font : Vector Byte 80) (bs : List Byte) (m : Memory) (a b : Nat) :
    Memory.get font (loadBytes font m a bs) b =
      if a ≤ b then (bs[b - a]?).getD (Memory.get font m b) else Memory.get font m b := by
  induction bs generalizing m a with
  | nil => simp [loadBytes]
  | cons v bs ih =>
    rw [loadBytes, ih]
    by_cases h : a ≤ b
    · by_cases hb : b = a
      · subst hb; simp
      · have h1 : a + 1 ≤ b := by omega
        obtain ⟨n, hn⟩ : ∃ n, b - a = n + 1 := ⟨b - a - 1, by omega⟩
        have hn' : b - (a + 1) = n := by omega
        simp [h, h1, hb, hn, hn']
    · have h1 : ¬ a + 1 ≤ b := by omega
      have hb : b ≠ a := by omega
      simp [h, h1, hb]

/-! ## The access primitives -/

theorem memRead_inRange {s : State} {a : Nat} (h : a ≤ lastAddr) : s.memRead a = .ok (Memory.get s.cfg.font s.mem a) := by
  simp [State.memRead, Nat.not_lt.2 h]

theorem memRead_outOfRange {s : State} {a : Nat} (h : lastAddr < a) : s.memRead a = .error .memoryOutOfRange := by
  simp [State.memRead, h]

/-- A read depends on memory and the font alone. -/
theorem memRead_congr {s t : State} (hm : t.mem = s.mem) (hc : t.cfg = s.cfg) (a : Nat) : t.memRead a = s.memRead a := by
  simp [State.memRead, hm, hc]

theorem memWrite_inRange {s : State} {a : Nat} {v : Byte} (h : a ≤ lastAddr) :
    s.memWrite a v = .ok { s with mem := Memory.set s.cfg.font s.mem a v } := by
  simp [State.memWrite, Nat.not_lt.2 h]

/-- Everything a write of several bytes in range does: it loads them. -/
theorem memWriteBytes_inRange (bs : List Byte) (s : State) (a : Nat) (h : a + bs.length ≤ memSize) :
    s.memWriteBytes a bs = .ok { s with mem := loadBytes s.cfg.font s.mem a bs } := by
  induction bs generalizing s a with
  | nil => rfl
  | cons b bs ih =>
    simp only [List.length_cons, memSize] at h
    rw [State.memWriteBytes, memWrite_inRange (by simp only [lastAddr]; omega)]
    exact ih _ _ (by simp only [memSize]; omega)

/-- Everything a read of several bytes in range does: byte `k` is the byte at `a + k`. -/
theorem memReadBytes_inRange (n : Nat) (s : State) (a : Nat) (h : a + n ≤ memSize) :
    s.memReadBytes a n = .ok ((List.range' a n).map (Memory.get s.cfg.font s.mem)) := by
  induction n generalizing a with
  | zero => rfl
  | succ n ih =>
    simp only [memSize] at h
    rw [State.memReadBytes, memRead_inRange (by simp only [lastAddr]; omega), ih (a + 1) (by simp only [memSize]; omega)]
    simp [Except.map, List.range'_succ]

end Sys2Proof.Machine
end

