-- ==== Sys2Proof/Laws/Ops.lean ====
section
/-! SUPPORT. For each shared operation of Ops, Operands and Flags one lemma that says once everything it can do. -/

namespace Sys2Proof.Machine

/-! ## Fault entry and commit -/

@[simp] theorem settle_ok (s t : State) : settle s (.ok t) = .next t := rfl
@[simp] theorem settle_error (s : State) (k : Fault) : settle s (.error k) = .next (s.takeFault k) := rfl

/-- What an instruction with a check can do: complete with all its writes, or fault with none. -/
theorem settle_cases {s t : State} {e : Except Fault State} (h : settle s e = .next t) :
    e = .ok t ∨ ∃ k, e = .error k ∧ t = s.takeFault k := by
  cases e with
  | ok u => simp only [settle_ok, Host.Outcome.next.injEq] at h; exact .inl (h ▸ rfl)
  | error k => simp only [settle_error, Host.Outcome.next.injEq] at h; exact .inr ⟨k, rfl, h.symm⟩

theorem takeFault_faulted (s : State) (k : Fault) : Faulted s (s.takeFault k) k :=
  ⟨rfl, ⟨_, rfl, rfl⟩, fun _ => rfl⟩

/-! ## Call stack -/

/-- Everything a push can do. -/
theorem push_cases (s : State) (v : Word) :
    (s.cfg.stackDepth = some s.sp ∧ s.push v = .error .stackOverflow) ∨
    (s.cfg.stackDepth ≠ some s.sp ∧ s.push v = .ok { s with stack := v :: s.stack }) := by
  by_cases h : s.cfg.stackDepth = some s.sp
  · exact .inl ⟨h, by simp [State.push, State.stackFull, h]⟩
  · exact .inr ⟨h, by simp [State.push, State.stackFull, h]⟩

/-- Everything a pop can do. -/
theorem pop_cases (s : State) :
    (s.stack = [] ∧ s.pop = .error .stackUnderflow) ∨
    (∃ v rest, s.stack = v :: rest ∧ s.pop = .ok (v, { s with stack := rest })) := by
  cases h : s.stack with
  | nil => exact .inl ⟨rfl, by simp [State.pop, h]⟩
  | cons v rest => exact .inr ⟨v, rest, rfl, by simp [State.pop, h]⟩

/-! ## Index register -/

/-- Everything a checked write of `I` can do. -/
theorem setI_cases (s : State) (n : Nat) :
    (n > 0x0FFF ∧ s.setI n = .error .memoryOutOfRange) ∨
    (n ≤ 0x0FFF ∧ s.setI n = .ok { s with I := BitVec.ofNat 16 n }) := by
  by_cases h : n > 0x0FFF
  · exact .inl ⟨h, by simp [State.setI, lastAddr, h]⟩
  · exact .inr ⟨by omega, by simp [State.setI, lastAddr, h]⟩

theorem toNat_ofNat_index {n : Nat} (h : n ≤ 0x0FFF) : (BitVec.ofNat 16 n).toNat = n := by
  simp; omega

@[simp] theorem toNat_addrOperand (nnn : Addr12) : (addrOperand nnn).toNat = nnn.toNat := by
  simp [addrOperand]; omega

/-! ## Data accesses -/

/-- What the whole-range check says. -/
theorem dataInRange_iff (s : State) (n : Nat) : s.dataInRange n = true ↔ n = 0 ∨ s.I.toNat + n - 1 ≤ 0x0FFF := by
  rw [State.dataInRange, Bool.or_eq_true, beq_iff_eq, decide_eq_true_eq, State.dataAddr, lastAddr]
  omega

/-- Everything a checked read of `n` bytes from `I` can do. -/
theorem readData_cases (s : State) (n : Nat) :
    (n ≠ 0 ∧ s.I.toNat + n - 1 > 0x0FFF ∧ s.readData n = .error .memoryOutOfRange) ∨
    ((n = 0 ∨ s.I.toNat + n - 1 ≤ 0x0FFF) ∧
      s.readData n = .ok ((List.range' s.I.toNat n).map (Memory.get s.cfg.font s.mem))) := by
  by_cases h : s.dataInRange n = true
  · refine .inr ⟨(dataInRange_iff s n).1 h, ?_⟩
    rw [State.readData, if_pos h, State.dataAddr, Nat.add_zero]
    rcases (dataInRange_iff s n).1 h with rfl | h'
    · rfl
    · by_cases hn : n = 0
      · subst hn; rfl
      · exact memReadBytes_inRange n s _ (by simp only [memSize]; omega)
  · have h' := mt (dataInRange_iff s n).2 h
    exact .inl ⟨by omega, by omega, by rw [State.readData, if_neg h]⟩

/-- Everything a checked write of bytes from `I` can do. -/
theorem writeData_cases (s : State) (bs : List Byte) (hb : bs ≠ []) :
    (s.I.toNat + bs.length - 1 > 0x0FFF ∧ s.writeData bs = .error .memoryOutOfRange) ∨
    (s.I.toNat + bs.length - 1 ≤ 0x0FFF ∧
      s.writeData bs = .ok { s with mem := loadBytes s.cfg.font s.mem s.I.toNat bs }) := by
  have hl : bs.length ≠ 0 := by simpa using hb
  by_cases h : s.dataInRange bs.length = true
  · have h' := (dataInRange_iff s _).1 h
    refine .inr ⟨by omega, ?_⟩
    rw [State.writeData, if_pos h, State.dataAddr, Nat.add_zero]
    exact memWriteBytes_inRange bs s _ (by simp only [memSize]; omega)
  · have h' := mt (dataInRange_iff s bs.length).2 h
    exact .inl ⟨by omega, by rw [State.writeData, if_neg h]⟩

/-- Everything a register used as a key id can do. -/
theorem keyOperand_cases (s : State) (x : Reg) :
    ((s.readV x).toNat > 15 ∧ s.keyOperand x = .error .keyIdOutOfRange) ∨
    (∃ k : KeyId, (s.readV x).toNat = k.val ∧ s.keyOperand x = .ok k) := by
  by_cases h : (s.readV x).toNat < 16
  · exact .inr ⟨⟨_, h⟩, rfl, by simp [State.keyOperand, h]⟩
  · exact .inl ⟨by omega, by simp [State.keyOperand, h]⟩

/-- Everything a load of registers does: register `k + j` gets byte `j`, the others stay. -/
theorem loadRegs_getElem (V : Vector Byte 16) (k : Nat) (bs : List Byte) (j : Reg) :
    (loadRegs V k bs)[j] = if k ≤ j.val then (bs[j.val - k]?).getD V[j] else V[j] := by
  induction bs generalizing V k with
  | nil => simp [loadRegs]
  | cons b bs ih =>
    rw [loadRegs, ih]
    have hg : (V.setIfInBounds k b)[j] = if k = j.val then b else V[j] := by
      simp [Vector.getElem_setIfInBounds]
    rw [hg]
    by_cases h : k ≤ j.val
    · by_cases hb : k = j.val
      · simp [hb]
      · have h1 : k + 1 ≤ j.val := by omega
        obtain ⟨n, hn⟩ : ∃ n, j.val - k = n + 1 := ⟨j.val - k - 1, by omega⟩
        have hn' : j.val - (k + 1) = n := by omega
        simp [h, h1, hb, hn, hn']
    · have h1 : ¬ k + 1 ≤ j.val := by omega
      have hb : ¬ k = j.val := by omega
      simp [h, h1, hb]

/-! ## Flags and results -/

@[simp] theorem toNat_flagByte (b : Bool) : (flagByte b).toNat = if b then 1 else 0 := by cases b <;> rfl

@[simp] theorem toNat_addResult (a b : Byte) : (addResult a b).toNat = (a.toNat + b.toNat) % 256 := by
  simp [addResult]

@[simp] theorem toNat_subResult (a b : Byte) : ((subResult a b).toNat : Int) = ((a.toNat : Int) - b.toNat) % 256 := by
  simp only [subResult, BitVec.toNat_ofInt]
  have : ((2 ^ 8 : Nat) : Int) = 256 := by norm_num
  rw [this, Int.toNat_of_nonneg (Int.emod_nonneg _ (by norm_num))]

end Sys2Proof.Machine
end

