-- ==== Sys2Proof/Laws/Display.lean ====
section
/-! SUPPORT. The pixels of the framebuffer after a toggle and after a plotted sprite pixel. -/

namespace Sys2Proof.Machine

@[simp] theorem pixel_blank (x : Fin 64) (y : Fin 32) : pixel blankFramebuffer x y = false := by
  simp [pixel, blankFramebuffer]

/-- A toggle turns its own pixel over and leaves every other one. -/
theorem pixel_togglePixel (fb : Framebuffer) (x px : Fin 64) (y py : Fin 32) :
    pixel (togglePixel fb x y) px py = (pixel fb px py ^^ decide (px = x ∧ py = y)) := by
  by_cases hy : py = y
  · subst hy
    have hp : (togglePixel fb x py)[py] = fb[py] ^^^ BitVec.twoPow 64 x := by simp [togglePixel]
    rw [pixel, hp, BitVec.getLsbD_xor, BitVec.getLsbD_twoPow]
    by_cases hx : px = x
    · subst hx; simp [pixel]
    · have : ¬ x.val = px.val := fun e => hx (Fin.ext e.symm)
      simp [pixel, hx, this]
  · have : y.val ≠ py.val := fun e => hy (Fin.ext e.symm)
    simp [pixel, togglePixel, hy, this]

/-- Two framebuffers with the same pixels are equal. -/
theorem framebuffer_ext {a b : Framebuffer} (h : ∀ x y, pixel a x y = pixel b x y) : a = b := by
  apply Vector.ext
  intro y hy
  apply BitVec.eq_of_getLsbD_eq
  intro x hx
  exact h ⟨x, hx⟩ ⟨y, hy⟩

@[simp] theorem plot_fb (x : Fin 64) (y : Fin 32) (d : Drawing) : (plot x y d).fb = togglePixel d.fb x y := rfl
@[simp] theorem plot_collided (x : Fin 64) (y : Fin 32) (d : Drawing) :
    (plot x y d).collided = (d.collided || pixel d.fb x y) := rfl

end Sys2Proof.Machine
end

