-- ==== Sys2Proof/Laws/Exec.lean ====
section
/-! SUPPORT. For each instruction with a check one lemma that says once everything it can do, and that every
instruction answers a next state: a fault of the spec is a state in Halted. -/

namespace Sys2Proof.Machine

theorem exec_ret_cases (s : State) :
    (s.stack = [] ∧ exec .ret s = .next (s.takeFault .stackUnderflow)) ∨
    (∃ a rest, s.stack = a :: rest ∧ exec .ret s = .next { s with stack := rest, pc := a }) := by
  rcases pop_cases s with ⟨h, e⟩ | ⟨a, rest, h, e⟩
  · exact .inl ⟨h, by rw [exec, execRet, e]; rfl⟩
  · exact .inr ⟨a, rest, h, by rw [exec, execRet, e]; rfl⟩

theorem exec_call_cases (nnn : Addr12) (s : State) :
    (s.cfg.stackDepth = some s.sp ∧ exec (.call nnn) s = .next (s.takeFault .stackOverflow)) ∨
    (s.cfg.stackDepth ≠ some s.sp ∧
      exec (.call nnn) s = .next { s with stack := (s.pc + 2) :: s.stack, pc := addrOperand nnn }) := by
  rcases push_cases s (s.pc + 2) with ⟨h, e⟩ | ⟨h, e⟩
  · exact .inl ⟨h, by rw [exec, execCall, e]; rfl⟩
  · exact .inr ⟨h, by rw [exec, execCall, e]; rfl⟩

theorem exec_addI_cases (x : Reg) (s : State) :
    (s.I.toNat + (s.readV x).toNat > 0x0FFF ∧ exec (.addI x) s = .next (s.takeFault .memoryOutOfRange)) ∨
    (s.I.toNat + (s.readV x).toNat ≤ 0x0FFF ∧ exec (.addI x) s =
      .next { s with I := BitVec.ofNat 16 (s.I.toNat + (s.readV x).toNat), pc := s.pc + 2 }) := by
  rcases setI_cases s (s.I.toNat + (s.readV x).toNat) with ⟨h, e⟩ | ⟨h, e⟩
  · exact .inl ⟨h, by rw [exec, execAddI, e]; rfl⟩
  · exact .inr ⟨h, by rw [exec, execAddI, e]; rfl⟩

theorem exec_ldB_cases (x : Reg) (s : State) :
    (s.I.toNat + 2 > 0x0FFF ∧ exec (.ldB x) s = .next (s.takeFault .memoryOutOfRange)) ∨
    (s.I.toNat + 2 ≤ 0x0FFF ∧ exec (.ldB x) s =
      .next { s with mem := loadBytes s.cfg.font s.mem s.I.toNat (bcdDigits (s.readV x)), pc := s.pc + 2 }) := by
  rcases writeData_cases s (bcdDigits (s.readV x)) (by simp [bcdDigits]) with ⟨h, e⟩ | ⟨h, e⟩
  · exact .inl ⟨by simpa [bcdDigits] using h, by rw [exec, execLdB, e]; rfl⟩
  · exact .inr ⟨by simpa [bcdDigits] using h, by rw [exec, execLdB, e]; rfl⟩

theorem exec_ldVxMem_cases (x : Reg) (s : State) :
    (s.I.toNat + x.val + 1 > 0x0FFF ∧ exec (.ldVxMem x) s = .next (s.takeFault .memoryOutOfRange)) ∨
    (s.I.toNat + x.val + 1 ≤ 0x0FFF ∧ exec (.ldVxMem x) s =
      .next { s with
        V := loadRegs s.V 0 ((List.range' s.I.toNat (x.val + 1)).map (Memory.get s.cfg.font s.mem))
        I := BitVec.ofNat 16 (s.I.toNat + x.val + 1)
        pc := s.pc + 2 }) := by
  rcases setI_cases s (s.I.toNat + x.val + 1) with ⟨h, e⟩ | ⟨h, e⟩
  · exact .inl ⟨h, by rw [exec, execLdVxMem, e]; rfl⟩
  · rcases readData_cases s (x.val + 1) with ⟨_, h2, _⟩ | ⟨_, e2⟩
    · omega
    · exact .inr ⟨h, by rw [exec, execLdVxMem, e]; simp only [e2]; rfl⟩

theorem exec_drw_cases (x y : Reg) (n : Nibble) (s : State) :
    (n.toNat ≠ 0 ∧ s.I.toNat + n.toNat - 1 > 0x0FFF ∧ exec (.drw x y n) s = .next (s.takeFault .memoryOutOfRange)) ∨
    ((n.toNat = 0 ∨ s.I.toNat + n.toNat - 1 ≤ 0x0FFF) ∧ exec (.drw x y n) s =
      .next (s.commitDrawing (drawSprite (s.readV x).toNat (s.readV y).toNat
        ((List.range' s.I.toNat n.toNat).map (Memory.get s.cfg.font s.mem)) s.fb)).advance) := by
  rcases readData_cases s n.toNat with ⟨h0, h, e⟩ | ⟨h, e⟩
  · exact .inl ⟨h0, h, by rw [exec, execDrw, e]; rfl⟩
  · exact .inr ⟨h, by rw [exec, execDrw, e]; rfl⟩

theorem exec_skp_cases (x : Reg) (s : State) :
    ((s.readV x).toNat > 15 ∧ exec (.skp x) s = .next (s.takeFault .keyIdOutOfRange)) ∨
    (∃ k : KeyId, (s.readV x).toNat = k.val ∧ exec (.skp x) s = .next (s.skipIf (s.keyDown k))) := by
  rcases keyOperand_cases s x with ⟨h, e⟩ | ⟨k, h, e⟩
  · exact .inl ⟨h, by rw [exec, execSkp, e]; rfl⟩
  · exact .inr ⟨k, h, by rw [exec, execSkp, e]; rfl⟩

theorem exec_sknp_cases (x : Reg) (s : State) :
    ((s.readV x).toNat > 15 ∧ exec (.sknp x) s = .next (s.takeFault .keyIdOutOfRange)) ∨
    (∃ k : KeyId, (s.readV x).toNat = k.val ∧ exec (.sknp x) s = .next (s.skipIf (!s.keyDown k))) := by
  rcases keyOperand_cases s x with ⟨h, e⟩ | ⟨k, h, e⟩
  · exact .inl ⟨h, by rw [exec, execSknp, e]; rfl⟩
  · exact .inr ⟨k, h, by rw [exec, execSknp, e]; rfl⟩

/-- Every instruction answers a next state on every state. -/
theorem exec_is_next (i : Instr) (s : State) : ∃ t, exec i s = .next t := by
  have settled (e : Except Fault State) : ∃ t, settle s e = .next t := by cases e <;> exact ⟨_, rfl⟩
  cases i <;> first | exact ⟨_, rfl⟩ | exact settled _

end Sys2Proof.Machine
end

