-- ==== Sys2Proof/Laws/Cycle.lean ====
section
/-! SUPPORT. What a fetch depends on, what every instruction leaves alone, and everything a cycle can do. -/

namespace Sys2Proof.Machine

/-! ## Fetch -/

/-- What a successful read says. -/
theorem memRead_ok {s : State} {a : Nat} {b : Byte} (h : s.memRead a = .ok b) :
    a ≤ 0x0FFF ∧ b = Memory.get s.cfg.font s.mem a := by
  by_cases ha : a ≤ 0x0FFF
  · rw [memRead_inRange ha] at h
    exact ⟨ha, (Except.ok.inj h).symm⟩
  · rw [memRead_outOfRange (by simp only [lastAddr]; omega)] at h
    cases h

/-- A fetch whose two bytes can be read gives the word of the two bytes. -/
theorem fetch_of_bytes {s : State} {hi lo : Byte} (h1 : s.memRead s.pc.toNat = .ok hi)
    (h2 : s.memRead (s.pc.toNat + 1) = .ok lo) : s.fetch = .ok (wordOfBytes hi lo) := by
  obtain ⟨_, rfl⟩ := memRead_ok h1
  obtain ⟨_, rfl⟩ := memRead_ok h2
  rw [State.fetch, State.memReadWord, if_neg (by omega), if_neg (by simp only [lastAddr]; omega)]

/-- A fetch past the end. -/
theorem fetch_past_end {s : State} (h : s.pc.toNat > 0x0FFE) : s.fetch = .error .memoryOutOfRange := by
  rw [State.fetch, if_pos h]

/-- A fetch depends on `pc`, memory and the font alone. -/
theorem fetch_congr {s t : State} (hp : t.pc = s.pc) (hm : t.mem = s.mem) (hc : t.cfg = s.cfg) : t.fetch = s.fetch := by
  simp [State.fetch, State.memReadWord, hp, hm, hc]

/-! ## What every instruction leaves alone -/

/-- The state no instruction writes, and the run states one can leave behind. -/
structure Completed (i : Instr) (s t : State) : Prop where
  run : t.run = s.run ∨ ∃ x, i = .ldVxK x ∧ t.run = .waitingForKey x
  cycles : t.cycles = s.cycles
  cfg : t.cfg = s.cfg
  keys : t.keys = s.keys
  random : t.random = s.random
  draws : t.draws = s.draws
  schedule : t.schedule = s.schedule

/-- Every instruction ends in fault entry with nothing written, or completes. -/
theorem exec_faults_or_completes {i : Instr} {s t : State} (h : exec i s = .next t) :
    (∃ k, t = s.takeFault k) ∨ Completed i s t := by
  have fault {k : Fault} (e : exec i s = .next (s.takeFault k)) : (∃ k, t = s.takeFault k) ∨ Completed i s t :=
    .inl ⟨k, Host.Outcome.next.inj (h.symm.trans e)⟩
  have done {u : State} (e : exec i s = .next u) (c : Completed i s u) :
      (∃ k, t = s.takeFault k) ∨ Completed i s t :=
    .inr (Host.Outcome.next.inj (e.symm.trans h) ▸ c)
  cases i with
  | ret =>
    rcases exec_ret_cases s with ⟨_, e⟩ | ⟨_, _, _, e⟩
    · exact fault e
    · exact done e ⟨.inl rfl, rfl, rfl, rfl, rfl, rfl, rfl⟩
  | call nnn =>
    rcases exec_call_cases nnn s with ⟨_, e⟩ | ⟨_, e⟩
    · exact fault e
    · exact done e ⟨.inl rfl, rfl, rfl, rfl, rfl, rfl, rfl⟩
  | addI x =>
    rcases exec_addI_cases x s with ⟨_, e⟩ | ⟨_, e⟩
    · exact fault e
    · exact done e ⟨.inl rfl, rfl, rfl, rfl, rfl, rfl, rfl⟩
  | ldB x =>
    rcases exec_ldB_cases x s with ⟨_, e⟩ | ⟨_, e⟩
    · exact fault e
    · exact done e ⟨.inl rfl, rfl, rfl, rfl, rfl, rfl, rfl⟩
  | ldVxMem x =>
    rcases exec_ldVxMem_cases x s with ⟨_, e⟩ | ⟨_, e⟩
    · exact fault e
    · exact done e ⟨.inl rfl, rfl, rfl, rfl, rfl, rfl, rfl⟩
  | drw x y n =>
    rcases exec_drw_cases x y n s with ⟨_, _, e⟩ | ⟨_, e⟩
    · exact fault e
    · exact done e ⟨.inl rfl, rfl, rfl, rfl, rfl, rfl, rfl⟩
  | skp x =>
    rcases exec_skp_cases x s with ⟨_, e⟩ | ⟨_, _, e⟩
    · exact fault e
    · exact done e (by constructor <;> simp)
  | sknp x =>
    rcases exec_sknp_cases x s with ⟨_, e⟩ | ⟨_, _, e⟩
    · exact fault e
    · exact done e (by constructor <;> simp)
  | ldVxK x => exact done rfl ⟨.inr ⟨x, rfl, rfl⟩, rfl, rfl, rfl, rfl, rfl, rfl⟩
  | seImm x nn => exact done rfl (by constructor <;> simp)
  | sneImm x nn => exact done rfl (by constructor <;> simp)
  | sneReg x y => exact done rfl (by constructor <;> simp)
  | _ => exact done rfl ⟨.inl rfl, rfl, rfl, rfl, rfl, rfl, rfl⟩

/-! ## The cycle -/

theorem cycle_of_running {r : Byte} {s : State} (h : s.run = .running) : cycle r s = runCycle { s with random := r } := by
  rw [cycle]; split
  · rfl
  · simp_all

theorem cycle_of_waiting {r : Byte} {s : State} {w : Reg} (h : s.run = .waitingForKey w) : cycle r s = .next s := by
  rw [cycle]; split
  · simp_all
  · rfl

theorem cycle_of_halted {r : Byte} {s : State} {f : FaultRecord} (h : s.run = .halted f) : cycle r s = .next s := by
  rw [cycle]; split
  · simp_all
  · rfl

/-- A completed instruction of a running machine: what the cycle adds is the count. -/
theorem countCycle_of_completed {i : Instr} {s t : State} (hr : s.run = .running) (c : Completed i s t) :
    t.countCycle = { t with cycles := t.cycles + 1 } ∧ t.isHalted = false := by
  rcases c.run with h | ⟨x, -, h⟩
  · rw [hr] at h; simp [State.countCycle, State.isHalted, h]
  · simp [State.countCycle, State.isHalted, h]

theorem runCycle_of_fetch_fault {s : State} {k : Fault} (h : s.fetch = .error k) : runCycle s = .next (s.takeFault k) := by
  simp [runCycle, h]

theorem runCycle_of_illegal {s : State} {w : Word} {e : DecodeError} (h : s.fetch = .ok w) (hd : decodeWord w = .error e) :
    runCycle s = .next (s.takeFault .unknownOpcode) := by simp [runCycle, h, hd]

theorem runCycle_of_decoded {s : State} {w : Word} {i : Instr} (h : s.fetch = .ok w) (hd : decodeWord w = .ok i) :
    runCycle s = finishCycle (exec i s) := by simp [runCycle, h, hd]

/-- Everything a cycle in Running can do: fault entry with nothing written, or the fetched instruction completes and the
cycle is counted. -/
theorem cycle_running_cases (r : Byte) {s : State} (h : s.run = .running) :
    (∃ k, cycle r s = .next (({ s with random := r } : State).takeFault k)) ∨
    (∃ w i t, s.fetch = .ok w ∧ decodeWord w = .ok i ∧ exec i { s with random := r } = .next t ∧
      Completed i { s with random := r } t ∧ cycle r s = .next { t with cycles := t.cycles + 1 }) := by
  have hf : ({ s with random := r } : State).fetch = s.fetch := fetch_congr rfl rfl rfl
  rw [cycle_of_running h]
  cases hw : s.fetch with
  | error k => exact .inl ⟨k, runCycle_of_fetch_fault (hf.trans hw)⟩
  | ok w =>
    cases hd : decodeWord w with
    | error e => exact .inl ⟨_, runCycle_of_illegal (hf.trans hw) hd⟩
    | ok i =>
      rw [runCycle_of_decoded (hf.trans hw) hd]
      obtain ⟨t, ht⟩ := exec_is_next i { s with random := r }
      rcases exec_faults_or_completes ht with ⟨k, rfl⟩ | c
      · exact .inl ⟨k, by rw [ht]; rfl⟩
      · exact .inr ⟨w, i, t, rfl, hd, ht, c, by rw [ht, finishCycle, (countCycle_of_completed (s := { s with random := r }) h c).1]⟩

end Sys2Proof.Machine
end

