-- ==== Sys2Proof/Laws/Decode.lean ====
section
/-! SUPPORT. The fields of an encoded word, and what the four masks of the opcode map keep of a word. -/

namespace Sys2Proof

@[simp] theorem regOfBits_bitsOfReg (x : Reg) : regOfBits (bitsOfReg x) = x := by
  revert x; decide

@[simp] theorem bitsOfReg_regOfBits (b : Nibble) : bitsOfReg (regOfBits b) = b := by
  revert b; decide

/-- The bytes of a word put together again. -/
@[simp] theorem wordOfBytes_bytes (w : Word) : wordOfBytes (highByte w) (lowByte w) = w := by
  apply BitVec.eq_of_getLsbD_eq
  intro i hi
  simp only [wordOfBytes, highByte, lowByte, BitVec.getLsbD_append, BitVec.getLsbD_extractLsb']
  by_cases h : i < 8
  · simp [h]
  · have : i - 8 < 8 := by omega
    simp [h, this, show 8 + (i - 8) = i by omega]

/-- Decoding of two bytes and more is decoding of their word. -/
theorem decode_cons (hi lo : Byte) (rest : List Byte) :
    decode (hi :: lo :: rest) = (decodeWord (wordOfBytes hi lo)).map (fun i => (i, rest)) := by
  simp only [decode]; cases decodeWord (wordOfBytes hi lo) <;> rfl

/-! ## Words and fields as numbers

A field is a quotient and a remainder of its word, and a word in one of the formats of R62 is a sum, so that every
question about encodings is one of linear arithmetic. -/

theorem toNat_extract (w : Word) (lo n : Nat) : (w.extractLsb' lo n).toNat = w.toNat / 2 ^ lo % 2 ^ n := by
  simp [BitVec.extractLsb'_toNat, Nat.shiftRight_eq_div_pow]

theorem toNat_n3 (w : Word) : (fields w).n3.toNat = w.toNat / 4096 := by
  simp only [fields, toNat_extract]; omega
theorem toNat_x (w : Word) : (fields w).x.toNat = w.toNat / 256 % 16 := toNat_extract w 8 4
theorem toNat_y (w : Word) : (fields w).y.toNat = w.toNat / 16 % 16 := toNat_extract w 4 4
theorem toNat_n (w : Word) : (fields w).n.toNat = w.toNat % 16 := by simp [fields]
theorem toNat_nn (w : Word) : (fields w).nn.toNat = w.toNat % 256 := by simp [fields]
theorem toNat_nnn (w : Word) : (fields w).nnn.toNat = w.toNat % 4096 := by simp [fields]
theorem val_regX (w : Word) : (fields w).regX.val = w.toNat / 256 % 16 := toNat_x w
theorem val_regY (w : Word) : (fields w).regY.val = w.toNat / 16 % 16 := toNat_y w

theorem toNat_append_word {n m : Nat} (a : BitVec n) (b : BitVec m) : (a ++ b).toNat = a.toNat * 2 ^ m + b.toNat := by
  rw [BitVec.toNat_append, ← Nat.shiftLeft_add_eq_or_of_lt b.isLt, Nat.shiftLeft_eq]

theorem toNat_bitsOfReg (x : Reg) : (bitsOfReg x).toNat = x.val := by simp [bitsOfReg]

theorem toNat_formatA (op : Nibble) (nnn : Addr12) : (formatA op nnn).toNat = op.toNat * 4096 + nnn.toNat :=
  toNat_append_word op nnn

theorem toNat_formatI (op : Nibble) (x : Reg) (nn : Byte) :
    (formatI op x nn).toNat = op.toNat * 4096 + x.val * 256 + nn.toNat := by
  have h : (formatI op x nn).toNat = (op ++ bitsOfReg x).toNat * 2 ^ 8 + nn.toNat := toNat_append_word _ nn
  rw [h, toNat_append_word, toNat_bitsOfReg]; omega

theorem toNat_formatR (op : Nibble) (x y : Reg) (n : Nibble) :
    (formatR op x y n).toNat = op.toNat * 4096 + x.val * 256 + y.val * 16 + n.toNat := by
  have h : (formatR op x y n).toNat = (op ++ bitsOfReg x ++ bitsOfReg y).toNat * 2 ^ 4 + n.toNat := toNat_append_word _ n
  rw [h, toNat_append_word, toNat_append_word, toNat_bitsOfReg, toNat_bitsOfReg]; omega

/-! ## The fields of each format (R62) -/

theorem fields_formatA (op : Nibble) (nnn : Addr12) :
    (fields (formatA op nnn)).n3 = op ∧ (fields (formatA op nnn)).nnn = nnn := by
  refine ⟨?_, ?_⟩ <;> apply BitVec.eq_of_toNat_eq <;> simp only [toNat_n3, toNat_nnn, toNat_formatA] <;> omega

theorem fields_formatI (op : Nibble) (x : Reg) (nn : Byte) :
    (fields (formatI op x nn)).n3 = op ∧ (fields (formatI op x nn)).regX = x ∧ (fields (formatI op x nn)).nn = nn := by
  refine ⟨BitVec.eq_of_toNat_eq ?_, Fin.ext ?_, BitVec.eq_of_toNat_eq ?_⟩ <;>
    simp only [toNat_n3, toNat_nn, val_regX, toNat_formatI] <;> omega

theorem fields_formatR (op : Nibble) (x y : Reg) (n : Nibble) :
    (fields (formatR op x y n)).n3 = op ∧ (fields (formatR op x y n)).regX = x ∧
    (fields (formatR op x y n)).regY = y ∧ (fields (formatR op x y n)).n = n := by
  refine ⟨BitVec.eq_of_toNat_eq ?_, Fin.ext ?_, Fin.ext ?_, BitVec.eq_of_toNat_eq ?_⟩ <;>
    simp only [toNat_n3, toNat_n, val_regX, val_regY, toNat_formatR] <;> omega

/-! ## What the masks of the opcode map keep of a word (R62) -/

theorem toNat_and_low (w : Word) (k : Nat) (hk : k ≤ 16) : (w &&& BitVec.ofNat 16 (2 ^ k - 1)).toNat = w.toNat % 2 ^ k := by
  have h : 2 ^ k ≤ 2 ^ 16 := Nat.pow_le_pow_right (by norm_num) hk
  have h2 : 2 ^ k - 1 < 2 ^ 16 := by have := Nat.two_pow_pos k; omega
  rw [BitVec.toNat_and, BitVec.toNat_ofNat, Nat.mod_eq_of_lt h2, Nat.and_two_pow_sub_one_eq_mod]

theorem toNat_and_F000 (w : Word) : (w &&& 0xF000#16).toNat = w.toNat / 4096 * 4096 := by
  have h : w &&& 0xF000#16 = w - (w &&& 0x0FFF#16) := by
    have h1 : w = (w &&& 0xF000#16) + (w &&& 0x0FFF#16) := by
      rw [BitVec.add_eq_or_of_and_eq_zero]
      · apply BitVec.eq_of_getLsbD_eq; intro i hi; interval_cases i <;> simp
      · apply BitVec.eq_of_getLsbD_eq; intro i hi; interval_cases i <;> simp
    rw [eq_sub_iff_add_eq]; exact h1.symm
  have h2 : (w &&& 0x0FFF#16).toNat = w.toNat % 4096 := toNat_and_low w 12 (by norm_num)
  have := w.isLt
  rw [h, BitVec.toNat_sub, h2]; omega

theorem toNat_and_F000_or (w : Word) (k : Nat) (hk : k ≤ 12) :
    (w &&& (0xF000#16 ||| BitVec.ofNat 16 (2 ^ k - 1))).toNat = w.toNat / 4096 * 4096 + w.toNat % 2 ^ k := by
  rw [BitVec.and_or_distrib_left, ← BitVec.add_eq_or_of_and_eq_zero, BitVec.toNat_add, toNat_and_F000,
    toNat_and_low w k (by omega)]
  · have : w.toNat % 2 ^ k < 4096 := (Nat.mod_lt _ (Nat.two_pow_pos k)).trans_le (Nat.pow_le_pow_right (by norm_num : 0 < 2) hk)
    have := w.isLt
    omega
  · rw [show (w &&& 0xF000#16) &&& (w &&& BitVec.ofNat 16 (2 ^ k - 1)) = w &&& (0xF000#16 &&& BitVec.ofNat 16 (2 ^ k - 1)) by
      apply BitVec.eq_of_getLsbD_eq; intro i hi; simp [BitVec.getLsbD_and]; cases w.getLsbD i <;> simp]
    interval_cases k <;> simp

theorem toNat_and_F00F (w : Word) : (w &&& 0xF00F#16).toNat = w.toNat / 4096 * 4096 + w.toNat % 16 :=
  toNat_and_F000_or w 4 (by norm_num)
theorem toNat_and_F0FF (w : Word) : (w &&& 0xF0FF#16).toNat = w.toNat / 4096 * 4096 + w.toNat % 256 :=
  toNat_and_F000_or w 8 (by norm_num)
theorem toNat_and_FFFF (w : Word) : (w &&& 0xFFFF#16).toNat = w.toNat :=
  (toNat_and_low w 16 (by norm_num)).trans (Nat.mod_eq_of_lt w.isLt)

end Sys2Proof
end

