-- ==== Sys2Proof/Laws/PerInstr.lean ====
section
/-! SUPPORT. Facts about every instruction as syntax, one lemma per constructor. `MatchesRow`: the word of the
instruction selects a row of the opcode map (30_encoding.md R63), and that row builds the instruction from the word's
fields. -/

namespace Sys2Proof.Laws

/-- The word of `i` selects a row of the opcode map that builds `i` again. -/
def MatchesRow.Statement (i : Instr) : Prop :=
  ∃ r ∈ opcodeRows, r.selects (encode i) = true ∧ r.build (fields (encode i)) = i

/-- A row selects a word when the masked word is the row's value as a number. -/
theorem selects_of_toNat {r : Row} {w : Word} (h : (w &&& r.mask).toNat = r.value.toNat) : r.selects w = true := by
  simpa [Row.selects] using BitVec.eq_of_toNat_eq h

theorem MatchesRow.formatA {r : Row} {op : Nibble} {nnn : Addr12} (hm : r.mask = 0xF000#16)
    (hv : r.value.toNat = op.toNat * 4096) : r.selects (Sys2Proof.formatA op nnn) = true := by
  apply selects_of_toNat
  rw [hm, toNat_and_F000, toNat_formatA, hv]; omega

theorem MatchesRow.formatI {r : Row} {op : Nibble} {x : Reg} {nn : Byte} (hm : r.mask = 0xF000#16)
    (hv : r.value.toNat = op.toNat * 4096) : r.selects (Sys2Proof.formatI op x nn) = true := by
  apply selects_of_toNat
  rw [hm, toNat_and_F000, toNat_formatI, hv]; omega

theorem MatchesRow.formatS {r : Row} {op : Nibble} {x : Reg} {nn : Byte} (hm : r.mask = 0xF0FF#16)
    (hv : r.value.toNat = op.toNat * 4096 + nn.toNat) : r.selects (Sys2Proof.formatI op x nn) = true := by
  apply selects_of_toNat
  rw [hm, toNat_and_F0FF, toNat_formatI, hv]; omega

theorem MatchesRow.formatR {r : Row} {op : Nibble} {x y : Reg} {n : Nibble} (hm : r.mask = 0xF00F#16)
    (hv : r.value.toNat = op.toNat * 4096 + n.toNat) : r.selects (Sys2Proof.formatR op x y n) = true := by
  apply selects_of_toNat
  rw [hm, toNat_and_F00F, toNat_formatR, hv]; omega

theorem MatchesRow.formatD {r : Row} {op : Nibble} {x y : Reg} {n : Nibble} (hm : r.mask = 0xF000#16)
    (hv : r.value.toNat = op.toNat * 4096) : r.selects (Sys2Proof.formatR op x y n) = true := by
  apply selects_of_toNat
  rw [hm, toNat_and_F000, toNat_formatR, hv]; omega

theorem MatchesRow.cls : MatchesRow.Statement .cls :=
  ⟨_, List.mem_of_getElem? (i := 0) rfl, by decide, rfl⟩
theorem MatchesRow.ret : MatchesRow.Statement .ret :=
  ⟨_, List.mem_of_getElem? (i := 1) rfl, by decide, rfl⟩
theorem MatchesRow.jp (nnn : Addr12) : MatchesRow.Statement (.jp nnn) :=
  ⟨_, List.mem_of_getElem? (i := 2) rfl, MatchesRow.formatA rfl rfl, congrArg Instr.jp (fields_formatA _ nnn).2⟩
theorem MatchesRow.call (nnn : Addr12) : MatchesRow.Statement (.call nnn) :=
  ⟨_, List.mem_of_getElem? (i := 3) rfl, MatchesRow.formatA rfl rfl, congrArg Instr.call (fields_formatA _ nnn).2⟩
theorem MatchesRow.seImm (x : Reg) (nn : Byte) : MatchesRow.Statement (.seImm x nn) :=
  ⟨_, List.mem_of_getElem? (i := 4) rfl, MatchesRow.formatI rfl rfl,
    congrArg₂ Instr.seImm (fields_formatI _ x nn).2.1 (fields_formatI _ x nn).2.2⟩
theorem MatchesRow.sneImm (x : Reg) (nn : Byte) : MatchesRow.Statement (.sneImm x nn) :=
  ⟨_, List.mem_of_getElem? (i := 5) rfl, MatchesRow.formatI rfl rfl,
    congrArg₂ Instr.sneImm (fields_formatI _ x nn).2.1 (fields_formatI _ x nn).2.2⟩
theorem MatchesRow.ldImm (x : Reg) (nn : Byte) : MatchesRow.Statement (.ldImm x nn) :=
  ⟨_, List.mem_of_getElem? (i := 6) rfl, MatchesRow.formatI rfl rfl,
    congrArg₂ Instr.ldImm (fields_formatI _ x nn).2.1 (fields_formatI _ x nn).2.2⟩
theorem MatchesRow.addImm (x : Reg) (nn : Byte) : MatchesRow.Statement (.addImm x nn) :=
  ⟨_, List.mem_of_getElem? (i := 7) rfl, MatchesRow.formatI rfl rfl,
    congrArg₂ Instr.addImm (fields_formatI _ x nn).2.1 (fields_formatI _ x nn).2.2⟩
theorem MatchesRow.ldReg (x y : Reg) : MatchesRow.Statement (.ldReg x y) :=
  ⟨_, List.mem_of_getElem? (i := 8) rfl, MatchesRow.formatR rfl rfl,
    congrArg₂ Instr.ldReg (fields_formatR _ x y _).2.1 (fields_formatR _ x y _).2.2.1⟩
theorem MatchesRow.andReg (x y : Reg) : MatchesRow.Statement (.andReg x y) :=
  ⟨_, List.mem_of_getElem? (i := 9) rfl, MatchesRow.formatR rfl rfl,
    congrArg₂ Instr.andReg (fields_formatR _ x y _).2.1 (fields_formatR _ x y _).2.2.1⟩
theorem MatchesRow.addReg (x y : Reg) : MatchesRow.Statement (.addReg x y) :=
  ⟨_, List.mem_of_getElem? (i := 10) rfl, MatchesRow.formatR rfl rfl,
    congrArg₂ Instr.addReg (fields_formatR _ x y _).2.1 (fields_formatR _ x y _).2.2.1⟩
theorem MatchesRow.subReg (x y : Reg) : MatchesRow.Statement (.subReg x y) :=
  ⟨_, List.mem_of_getElem? (i := 11) rfl, MatchesRow.formatR rfl rfl,
    congrArg₂ Instr.subReg (fields_formatR _ x y _).2.1 (fields_formatR _ x y _).2.2.1⟩
theorem MatchesRow.sneReg (x y : Reg) : MatchesRow.Statement (.sneReg x y) :=
  ⟨_, List.mem_of_getElem? (i := 12) rfl, MatchesRow.formatR rfl rfl,
    congrArg₂ Instr.sneReg (fields_formatR _ x y _).2.1 (fields_formatR _ x y _).2.2.1⟩
theorem MatchesRow.ldI (nnn : Addr12) : MatchesRow.Statement (.ldI nnn) :=
  ⟨_, List.mem_of_getElem? (i := 13) rfl, MatchesRow.formatA rfl rfl, congrArg Instr.ldI (fields_formatA _ nnn).2⟩
theorem MatchesRow.rnd (x : Reg) (nn : Byte) : MatchesRow.Statement (.rnd x nn) :=
  ⟨_, List.mem_of_getElem? (i := 14) rfl, MatchesRow.formatI rfl rfl,
    congrArg₂ Instr.rnd (fields_formatI _ x nn).2.1 (fields_formatI _ x nn).2.2⟩
theorem MatchesRow.drw (x y : Reg) (n : Nibble) : MatchesRow.Statement (.drw x y n) := by
  refine ⟨_, List.mem_of_getElem? (i := 15) rfl, MatchesRow.formatD rfl rfl, ?_⟩
  obtain ⟨-, hx, hy, hn⟩ := fields_formatR 0xD x y n
  show Instr.drw _ _ _ = _
  rw [encode, hx, hy, hn]
theorem MatchesRow.skp (x : Reg) : MatchesRow.Statement (.skp x) :=
  ⟨_, List.mem_of_getElem? (i := 16) rfl, MatchesRow.formatS rfl rfl, congrArg Instr.skp (fields_formatI _ x _).2.1⟩
theorem MatchesRow.sknp (x : Reg) : MatchesRow.Statement (.sknp x) :=
  ⟨_, List.mem_of_getElem? (i := 17) rfl, MatchesRow.formatS rfl rfl, congrArg Instr.sknp (fields_formatI _ x _).2.1⟩
theorem MatchesRow.ldVxDT (x : Reg) : MatchesRow.Statement (.ldVxDT x) :=
  ⟨_, List.mem_of_getElem? (i := 18) rfl, MatchesRow.formatS rfl rfl, congrArg Instr.ldVxDT (fields_formatI _ x _).2.1⟩
theorem MatchesRow.ldVxK (x : Reg) : MatchesRow.Statement (.ldVxK x) :=
  ⟨_, List.mem_of_getElem? (i := 19) rfl, MatchesRow.formatS rfl rfl, congrArg Instr.ldVxK (fields_formatI _ x _).2.1⟩
theorem MatchesRow.ldDTVx (x : Reg) : MatchesRow.Statement (.ldDTVx x) :=
  ⟨_, List.mem_of_getElem? (i := 20) rfl, MatchesRow.formatS rfl rfl, congrArg Instr.ldDTVx (fields_formatI _ x _).2.1⟩
theorem MatchesRow.ldSTVx (x : Reg) : MatchesRow.Statement (.ldSTVx x) :=
  ⟨_, List.mem_of_getElem? (i := 21) rfl, MatchesRow.formatS rfl rfl, congrArg Instr.ldSTVx (fields_formatI _ x _).2.1⟩
theorem MatchesRow.addI (x : Reg) : MatchesRow.Statement (.addI x) :=
  ⟨_, List.mem_of_getElem? (i := 22) rfl, MatchesRow.formatS rfl rfl, congrArg Instr.addI (fields_formatI _ x _).2.1⟩
theorem MatchesRow.ldF (x : Reg) : MatchesRow.Statement (.ldF x) :=
  ⟨_, List.mem_of_getElem? (i := 23) rfl, MatchesRow.formatS rfl rfl, congrArg Instr.ldF (fields_formatI _ x _).2.1⟩
theorem MatchesRow.ldB (x : Reg) : MatchesRow.Statement (.ldB x) :=
  ⟨_, List.mem_of_getElem? (i := 24) rfl, MatchesRow.formatS rfl rfl, congrArg Instr.ldB (fields_formatI _ x _).2.1⟩
theorem MatchesRow.ldVxMem (x : Reg) : MatchesRow.Statement (.ldVxMem x) :=
  ⟨_, List.mem_of_getElem? (i := 25) rfl, MatchesRow.formatS rfl rfl, congrArg Instr.ldVxMem (fields_formatI _ x _).2.1⟩

end Sys2Proof.Laws
end

