-- ==== Sys2Proof/Tests/Slice0.lean ====
section
/-! SUPPORT. Tests. Expected results are the spec's own: the examples of the instruction rules, the vectors of
95_test_vectors.md, and words written out bit by bit from the encodings of 30_encoding.md. Then one witness for each
statement with hypotheses. -/

namespace Sys2Proof.Tests

open Sys2Proof.Machine

/-! ## Helpers -/

/-- The reset state with the word `w` at 0x200, where the first step fetches it, after the changes of `f`. -/
def after (w : Nat) (f : State → State := id) : State := (f State.reset).withFetchWord 16 w

/-- One field of the state a step leads to. -/
def stepped {α : Type} (s : State) (g : State → α) : Option α :=
  match step s with
  | .next t => some (g t)
  | _ => none

/-- One field of the state an event leads to. -/
def delivered {α : Type} (e : Event) (s : State) (g : State → α) : Option α :=
  match deliver e s with
  | .next t => some (g t)
  | _ => none

/-- A register set before the step. -/
def setV (x : Reg) (v : Byte) (s : State) : State := s.writeV x v

/-- A byte of memory set before the step. -/
def setMem (a : Nat) (v : Byte) (s : State) : State := { s with mem := Memory.set s.cfg.font s.mem a v }

/-! ## WellFormed: an ill-formed term for each check -/

theorem test_rom_of_3584_bytes_fits : romWellFormed (List.replicate 3584 0) = true := by
  rw [romWellFormed, List.length_replicate]; decide
theorem test_rom_of_3585_bytes_refused : romWellFormed (List.replicate 3585 0) = false := by
  rw [romWellFormed, List.length_replicate]; decide
theorem test_stack_depth_zero_refused : ({ Config.default with stackDepth := some 0 } : Config).wellFormed = false := by decide
theorem test_stack_unbounded_accepted : ({ Config.default with stackDepth := none } : Config).wellFormed = true := by decide

/-! ## Decoding: words written out from the encodings of R62 and R63 -/

theorem test_decode_cls : decodeWord 0b0000_0000_1110_0000 = .ok .cls := by decide
theorem test_decode_ret : decodeWord 0b0000_0000_1110_1110 = .ok .ret := by decide
theorem test_decode_jp : decodeWord 0b0001_1010_1011_1100 = .ok (.jp 0xABC) := by decide
theorem test_decode_call : decodeWord 0b0010_0000_0000_0001 = .ok (.call 0x001) := by decide
theorem test_decode_seImm : decodeWord 0b0011_0111_1000_0001 = .ok (.seImm 7 0x81) := by decide
theorem test_decode_sneImm : decodeWord 0b0100_1110_0000_1111 = .ok (.sneImm 14 0x0F) := by decide
theorem test_decode_ldImm : decodeWord 0b0110_1010_0010_1111 = .ok (.ldImm 10 0x2F) := by decide
theorem test_decode_addImm : decodeWord 0b0111_0001_0010_0000 = .ok (.addImm 1 0x20) := by decide
theorem test_decode_ldReg : decodeWord 0b1000_0001_0010_0000 = .ok (.ldReg 1 2) := by decide
theorem test_decode_andReg : decodeWord 0b1000_1100_0011_0010 = .ok (.andReg 12 3) := by decide
theorem test_decode_addReg : decodeWord 0b1000_0001_1111_0100 = .ok (.addReg 1 15) := by decide
theorem test_decode_subReg : decodeWord 0b1000_1111_0000_0101 = .ok (.subReg 15 0) := by decide
theorem test_decode_sneReg : decodeWord 0b1001_0001_0010_0000 = .ok (.sneReg 1 2) := by decide
theorem test_decode_ldI : decodeWord 0b1010_0011_0000_0000 = .ok (.ldI 0x300) := by decide
theorem test_decode_rnd : decodeWord 0b1100_0011_0000_1111 = .ok (.rnd 3 0x0F) := by decide
theorem test_decode_drw : decodeWord 0b1101_0001_0010_0101 = .ok (.drw 1 2 5) := by decide
theorem test_decode_skp : decodeWord 0b1110_0001_1001_1110 = .ok (.skp 1) := by decide
theorem test_decode_sknp : decodeWord 0b1110_0001_1010_0001 = .ok (.sknp 1) := by decide
theorem test_decode_ldVxDT : decodeWord 0b1111_0010_0000_0111 = .ok (.ldVxDT 2) := by decide
theorem test_decode_ldVxK : decodeWord 0b1111_0001_0000_1010 = .ok (.ldVxK 1) := by decide
theorem test_decode_ldDTVx : decodeWord 0b1111_0000_0001_0101 = .ok (.ldDTVx 0) := by decide
theorem test_decode_ldSTVx : decodeWord 0b1111_0100_0001_1000 = .ok (.ldSTVx 4) := by decide
theorem test_decode_addI : decodeWord 0b1111_0010_0001_1110 = .ok (.addI 2) := by decide
theorem test_decode_ldF : decodeWord 0b1111_1010_0010_1001 = .ok (.ldF 10) := by decide
theorem test_decode_ldB : decodeWord 0b1111_0000_0011_0011 = .ok (.ldB 0) := by decide
theorem test_decode_ldVxMem : decodeWord 0b1111_0010_0110_0101 = .ok (.ldVxMem 2) := by decide

/-- 95_test_vectors.md 3.6: the illegal words, the nine standard instructions of R69 among them. -/
theorem test_illegal_words_refused :
    ([0x0000, 0x00E1, 0x0123, 0x0AE0, 0x5120, 0x8121, 0x8123, 0x8126, 0x8127, 0x812E, 0x8128, 0x9121, 0xB200, 0xE19F,
      0xE100, 0xF155, 0xF100, 0xFFFF] : List Word).all (fun w => (decodeWord w).toOption == none) = true := by decide

/-- R43: the byte at the lower address is the high byte. -/
theorem test_decode_bytes_big_endian : decode [0x00, 0xE0, 0x12] = .ok (.cls, [0x12]) := by decide
theorem test_decode_bytes_not_little_endian : decode [0xE0, 0x00] = .error (.illegalGroupE 0xE000) := by decide
theorem test_decode_truncated : decode [0x12] = .error .truncated := by decide
theorem test_decodeTableWord : decodeTableWord 16 0x6A2F = some (.ldImm 10 0x2F) := by decide
theorem test_encode_drw : encode (.drw 1 2 5) = 0xD125 := by decide
theorem test_encodeBytes_jp : encodeBytes (.jp 0x206) = [0x12, 0x06] := by decide

/-! ## Control flow (95_test_vectors.md 3.1) -/

theorem test_ret : stepped (after 0x00EE fun s => { s with pc := 0x300, stack := [0x20A, 0x206] })
    (fun t => (t.pc, t.stack)) = some (0x20A, [0x206]) := by decide
theorem test_ret_underflow : stepped (after 0x00EE) (fun t => (t.run, t.pc, t.cycles)) =
    some (.halted ⟨.stackUnderflow, 0x200, 0⟩, 0x200, 0) := by decide
theorem test_jp_odd : stepped (after 0x1201) (fun t => (t.pc, t.run)) = some (0x201, .running) := by decide
theorem test_call_last_word : stepped (after 0x2300 fun s => { s with pc := 0xFFE }) (fun t => (t.pc, t.stack)) =
    some (0x300, [0x1000]) := by decide
theorem test_call_overflow : stepped (after 0x2300 fun s => { s with stack := List.replicate 16 0x202 })
    (fun t => (t.run, t.sp)) = some (.halted ⟨.stackOverflow, 0x200, 0⟩, 16) := by decide
theorem test_call_unbounded : stepped (after 0x2300 fun s =>
    { s with stack := List.replicate 16 0x202, cfg := { s.cfg with stackDepth := none } })
    (fun t => (t.pc, t.sp)) = some (0x300, 17) := by decide
theorem test_se_taken_to_largest_pc : stepped (after 0x3000 fun s => { s with pc := 0xFFE }) (fun t => t.pc) =
    some 0x1002 := by decide
theorem test_se_not_taken : stepped (after 0x3342 (setV 3 0x41)) (fun t => t.pc) = some 0x202 := by decide
theorem test_sne_equal : stepped (after 0x4342 (setV 3 0x42)) (fun t => t.pc) = some 0x202 := by decide
theorem test_sne_different : stepped (after 0x4342 (setV 3 0x41)) (fun t => t.pc) = some 0x204 := by decide
theorem test_sneReg_different : stepped (after 0x9120 (setV 1 5 ∘ setV 2 6)) (fun t => t.pc) = some 0x204 := by decide
theorem test_sneReg_same_register : stepped (after 0x9330 (setV 3 9)) (fun t => t.pc) = some 0x202 := by decide

/-! ## Registers and arithmetic (95_test_vectors.md 3.2) -/

theorem test_ldImm_VF : stepped (after 0x6F07) (fun t => t.readV 15) = some 0x07 := by decide
theorem test_addImm_wraps_without_flag : stepped (after 0x7101 (setV 1 0xFF ∘ setV 15 0x55))
    (fun t => (t.readV 1, t.readV 15)) = some (0, 0x55) := by decide
theorem test_ldReg : stepped (after 0x8120 (setV 1 1 ∘ setV 2 0x99)) (fun t => (t.readV 1, t.readV 2)) =
    some (0x99, 0x99) := by decide
theorem test_andReg : stepped (after 0x8122 (setV 1 0xCC ∘ setV 2 0xAA ∘ setV 15 7)) (fun t => (t.readV 1, t.readV 15)) =
    some (0x88, 7) := by decide
theorem test_addReg_source_example : stepped (after 0x8124 (setV 1 250 ∘ setV 2 10)) (fun t => (t.readV 1, t.readV 15)) =
    some (4, 1) := by decide
theorem test_addReg_VF_is_operand_then_flag : stepped (after 0x81F4 (setV 1 0xC8 ∘ setV 15 0x64))
    (fun t => (t.readV 1, t.readV 15)) = some (0x2C, 1) := by decide
theorem test_subReg_source_example : stepped (after 0x8125 (setV 1 5 ∘ setV 2 10)) (fun t => (t.readV 1, t.readV 15)) =
    some (251, 0) := by decide
theorem test_subReg_result_stays_in_VF : stepped (after 0x8F15 (setV 15 5 ∘ setV 1 10)) (fun t => t.readV 15) =
    some 0xFB := by decide
theorem test_rnd_masks : stepped { after 0xC30F with schedule := [.cycle 0xA7] } (fun t => t.readV 3) = some 0x07 := by
  decide
theorem test_rnd_mask_of_one_bit : stepped { after 0xC310 with schedule := [.cycle 0x0F] } (fun t => t.readV 3) =
    some 0 := by decide

/-! ## Index and memory (95_test_vectors.md 3.3) -/

theorem test_ldI : stepped (after 0xAFFF) (fun t => t.I) = some 0x0FFF := by decide
theorem test_addI_to_last : stepped (after 0xF21E fun s => setV 2 0xFF { s with I := 0xF00 }) (fun t => t.I) =
    some 0xFFF := by decide
theorem test_addI_past_last : stepped (after 0xF21E fun s => setV 2 0xFF { s with I := 0xF01 })
    (fun t => (t.run, t.I, t.pc)) = some (.halted ⟨.memoryOutOfRange, 0x200, 0⟩, 0xF01, 0x200) := by decide
theorem test_ldF_not_masked : stepped (after 0xF029 (setV 0 0xFF)) (fun t => t.I) = some 0x4FB := by decide
theorem test_ldB_254 : stepped (after 0xF033 fun s => setV 0 254 { s with I := 0x300 })
    (fun t => ([0x300, 0x301, 0x302].map fun a => (t.memRead a).toOption, t.I)) =
    some ([some 2, some 5, some 4], 0x300) := by decide
theorem test_ldB_past_end_writes_nothing : stepped (after 0xF033 fun s => setV 0 255 { s with I := 0xFFE })
    (fun t => (t.run, (t.memRead 0xFFE).toOption)) = some (.halted ⟨.memoryOutOfRange, 0x200, 0⟩, some 0) := by decide
theorem test_ldVxMem_font : stepped (after 0xFF65) (fun t => (t.V, t.I)) =
    some (#v[0xF0, 0x90, 0x90, 0x90, 0xF0, 0x20, 0x60, 0x20, 0x20, 0x70, 0xF0, 0x10, 0xF0, 0x80, 0xF0, 0xF0], 0x010) := by
  decide
theorem test_ldVxMem_last_byte_faults : stepped (after 0xF065 fun s => setMem 0xFFF 1 { s with I := 0xFFF })
    (fun t => (t.run, t.readV 0)) = some (.halted ⟨.memoryOutOfRange, 0x200, 0⟩, 0) := by decide

/-! ## Display (95_test_vectors.md 3.4 and 5) -/

theorem test_cls : stepped (after 0x00E0 fun s => setV 15 1 { s with fb := togglePixel s.fb 63 31 })
    (fun t => (t.fb, t.dirty, t.readV 15)) = some (Vector.replicate 32 0, true, 1) := by decide
/-- Program P3: glyph 0 at (63, 31) wraps on both axes: 14 pixels on rows 31 and 0 to 3. -/
theorem test_drw_wraps : stepped (after 0xD125 (setV 1 0x3F ∘ setV 2 0x1F))
    (fun t => ([31, 0, 1, 2, 3, 4].map fun y : Fin 32 => ([63, 0, 1, 2, 3] : List (Fin 64)).filter fun x => pixel t.fb x y,
      t.readV 15)) =
    some ([[63, 0, 1, 2], [63, 2], [63, 2], [63, 2], [63, 0, 1, 2], []], 0) := by decide
theorem test_drw_collides : stepped (after 0xD121 fun s => setMem 0x300 0xC0
      { s with I := 0x300, fb := togglePixel (togglePixel s.fb 1 0) 5 5 })
    (fun t => (pixel t.fb 0 0, pixel t.fb 1 0, pixel t.fb 5 5, t.readV 15)) = some (true, false, true, 1) := by decide

/-! ## Keypad, timers, events (95_test_vectors.md 3.5) -/

/-- Key `k` down. -/
def press (k : KeyId) (s : State) : State := s.setKey k true

theorem test_skp_down : stepped (after 0xE19E (setV 1 15 ∘ press 15)) (fun t => t.pc) = some 0x204 := by decide
theorem test_skp_not_masked : stepped (after 0xE19E (setV 1 0xFF ∘ press 15)) (fun t => t.run) =
    some (.halted ⟨.keyIdOutOfRange, 0x200, 0⟩) := by decide
theorem test_sknp_up : stepped (after 0xE1A1 (setV 1 7)) (fun t => t.pc) = some 0x204 := by decide
theorem test_sknp_down : stepped (after 0xE1A1 (setV 1 7 ∘ press 7)) (fun t => t.pc) = some 0x202 := by decide
theorem test_ldVxDT : stepped (after 0xF207 fun s => { s with DT := 2 }) (fun t => (t.readV 2, t.DT)) = some (2, 2) := by
  decide
theorem test_ldDTVx : stepped (after 0xF015 (setV 0 3)) (fun t => t.DT) = some 3 := by decide
theorem test_ldSTVx : stepped (after 0xF418 (setV 4 0x1E)) (fun t => (t.ST, t.tone)) = some (0x1E, true) := by decide
theorem test_ldVxK_ignores_held_key : stepped (after 0xF10A (press 3)) (fun t => (t.run, t.pc, t.readV 1, t.cycles)) =
    some (.waitingForKey 1, 0x202, 0, 1) := by decide
theorem test_tick : delivered .tick { State.reset with DT := 5, ST := 1 } (fun t => (t.DT, t.ST, t.tone)) =
    some (4, 0, false) := by decide
theorem test_tick_stops_at_zero : delivered .tick State.reset (fun t => (t.DT, t.ST)) = some (0, 0) := by decide
theorem test_press_ends_wait : delivered (.keyEvent 10 true) { State.reset with run := .waitingForKey 15 }
    (fun t => (t.readV 15, t.run, t.keyDown 10)) = some (0x0A, .running, true) := by decide
theorem test_release_does_not_end_wait : delivered (.keyEvent 7 false) { State.reset with run := .waitingForKey 1 }
    (fun t => t.run) = some (.waitingForKey 1) := by decide
theorem test_frameAck : delivered .frameAck { State.reset with dirty := true } (fun t => t.dirty) = some false := by decide

/-! ## Fetch and reset (95_test_vectors.md 3.7 and 4) -/

theorem test_fetch_past_end : stepped { State.reset with pc := 0xFFF } (fun t => t.run) =
    some (.halted ⟨.memoryOutOfRange, 0xFFF, 0⟩) := by decide
theorem test_fetch_odd : stepped (after 0x00E0 fun s => { s with pc := 0x201 }) (fun t => t.pc) = some 0x203 := by decide
theorem test_empty_rom : stepped State.reset (fun t => t.run) = some (.halted ⟨.unknownOpcode, 0x200, 0⟩) := by decide
theorem test_construct_places_the_rom : delivered (.construct [0x12, 0x06]) State.reset
    (fun t => ((t.memRead 0x200).toOption, (t.memRead 0x201).toOption)) = some (some 0x12, some 0x06) := by decide

/-! ## Witnesses: a concrete state and operands that meet the hypotheses of each statement that has some, at the
boundary values of its clauses -/

/-- What `exec` of one instruction leads to, one field of it. -/
def ran {α : Type} (i : Instr) (s : State) (g : State → α) : Option α :=
  match exec i s with
  | .next t => some (g t)
  | _ => none

/-- A state at reset but for `I`. -/
def atIndex (a : Word) : State := { State.reset with I := a }

/-- A state halted by the fetch of 0x0000 at reset. -/
def haltedState : State := State.reset.takeFault .unknownOpcode

/-- A state waiting for a key for register 15. -/
def waitingState : State := { State.reset with run := .waitingForKey 15 }

theorem witness_EncodeOfDecodeIsTheWord : decodeWord 0xD125 = .ok (.drw 1 2 5) ∧ encode (.drw 1 2 5) = 0xD125 := by decide
theorem witness_NoWordSelectsTwoRows : ∃ r ∈ opcodeRows, r.value = 0x8004 ∧ r.selects 0x8FF4 = true :=
  ⟨{ value := 0x8004, mask := 0xF00F, build := fun f => .addReg f.regX f.regY }, by simp [opcodeRows, rowsMiddle], by decide⟩
theorem witness_StepRunsTheDecodedInstruction_free_byte :
    (after 0xC3FF).run = .running ∧ (after 0xC3FF).memRead 0x200 = .ok 0xC3 ∧ (after 0xC3FF).memRead 0x201 = .ok 0xFF ∧
    decode [0xC3, 0xFF] = .ok (.rnd 3 0xFF, []) ∧ (after 0xC3FF).schedule = [] := by decide
theorem witness_StepRunsTheDecodedInstruction_named_byte :
    { after 0xC3FF with schedule := [.cycle 7, .tick] }.run = .running ∧
    stepped { after 0xC3FF with schedule := [.cycle 7, .tick] } (fun t => (t.readV 3, t.schedule)) = some (7, [.tick]) := by
  decide
theorem witness_FetchAndDispatchFaultsInOrder :
    { State.reset with pc := 0x0FFF }.run = .running ∧ (0x0FFF : Word).toNat > 0x0FFE ∧
    { State.reset with pc := 0x0FFE }.memRead 0x0FFE = .ok 0 ∧ { State.reset with pc := 0x0FFE }.memRead 0x0FFF = .ok 0 ∧
    IllegalWord ((0 : Byte) ++ (0 : Byte)) := ⟨rfl, by decide, by decide, by decide, .inl (by decide)⟩
theorem witness_CyclesWhileNotRunningDoNothing :
    waitingState.run = .waitingForKey 15 ∧ haltedState.run = .halted ⟨.unknownOpcode, 0x200, 0⟩ := by decide
theorem witness_RunningCycleCompletesOrChangesNothing : State.reset.run = .running ∧
    delivered (.cycle 0) State.reset (fun t => t.isHalted) = some true ∧
    delivered (.cycle 0) (after 0x00E0) (fun t => (t.isHalted, t.cycles)) = some (false, 1) := by decide
theorem witness_StepKeepsTheMachineInvariant : State.reset.Inv ∧ (stepped State.reset fun t => t.pc) = some 0x200 :=
  ⟨⟨by decide, by decide, by decide, List.forall_mem_nil _, fun _ _ => Nat.zero_le _⟩, by decide⟩
theorem witness_StepKeepsTheFaultRecordInStep : haltedState.RecordMatches ∧ ∃ t, step haltedState = .next t :=
  ⟨fun f h => by have := RunState.halted.inj h; subst this; exact ⟨rfl, rfl⟩, _, rfl⟩
theorem witness_RunStateFollowsTheTransitionTable :
    delivered (.cycle 1) (after 0xF10A) (fun t => t.run) = some (.waitingForKey 1) ∧
    delivered (.keyEvent 0 true) waitingState (fun t => t.run) = some .running ∧
    delivered (.keyEvent 0 false) waitingState (fun t => t.run) = some (.waitingForKey 15) ∧
    delivered .tick haltedState (fun t => t.run) = some (.halted ⟨.unknownOpcode, 0x200, 0⟩) ∧
    delivered (.construct []) haltedState (fun t => t.run) = some .running := by decide
theorem witness_HaltedIsTerminal : haltedState.run = .halted ⟨.unknownOpcode, 0x200, 0⟩ ∧
    (∃ t, deliver (.keyEvent 3 true) haltedState = .next t) ∧ (∃ t, deliver .tick haltedState = .next t) ∧
    ∀ rom, Event.keyEvent 3 true ≠ .construct rom := ⟨rfl, ⟨_, rfl⟩, ⟨_, rfl⟩, fun _ => Event.noConfusion⟩
theorem witness_StepStopsOnlyOnAnOverlongRom (n : Nat) :
    { State.reset with schedule := [.construct (List.replicate n 0)] }.nextEvent = .construct (List.replicate n 0) ∧
    (List.replicate 3584 (0 : Byte)).length ≤ 3584 ∧ (List.replicate 3585 (0 : Byte)).length > 3584 :=
  ⟨rfl, by rw [List.length_replicate], by rw [List.length_replicate]; decide⟩
theorem witness_TickCountsTimersDown : haltedState.isHalted = true ∧ waitingState.isHalted = false ∧
    State.reset.isHalted = false := by decide
theorem witness_KeyEventWritesItsFlagAndEndsAWait : waitingState.run = .waitingForKey 15 ∧
    (∀ w, State.reset.run ≠ .waitingForKey w) ∧ (0 : KeyId) ≠ 15 := ⟨rfl, fun _ h => (by cases h), by decide⟩
theorem witness_ConstructLoadsTheResetImage : (List.replicate 3584 (7 : Byte)).length ≤ 3584 ∧
    (0x0FFF : Nat) < 0x200 + (List.replicate 3584 (7 : Byte)).length ∧
    delivered (.construct [7]) State.reset (fun t => [0, 79, 80, 0x1FF, 0x200, 0x201, 0xFFF].map fun a => (t.memRead a).toOption) =
      some [some 0xF0, some 0x80, some 0, some 0, some 7, some 0, some 0] :=
  ⟨by rw [List.length_replicate], by rw [List.length_replicate]; decide, by decide⟩
theorem witness_ConstructResetsEverythingElse : ([] : List Byte).length ≤ 3584 ∧
    (List.replicate 3585 (0 : Byte)).length > 3584 ∧ State.reset.cfg = Config.default ∧ State.reset.draws = 0 ∧
    State.reset.schedule = [] := ⟨by decide, by rw [List.length_replicate]; decide, rfl, rfl, rfl⟩
theorem witness_StoreWritesOneByteAndOnlyLdBStores : State.reset.memWrite 0x1000 1 = .error .memoryOutOfRange ∧
    (∃ t, State.reset.memWrite 0x0FFF 1 = .ok t) ∧ (∀ x, Instr.cls ≠ .ldB x) ∧ ∃ t, exec .cls State.reset = .next t :=
  ⟨by decide, ⟨_, rfl⟩, fun _ => Instr.noConfusion, _, rfl⟩
theorem witness_ReadsAreCheckedAndBigEndian : (after 0x1206).memRead 0x1000 = .error .memoryOutOfRange ∧
    (after 0x1206).memRead 0x0FFF = .ok 0 ∧ (after 0x1206).memReadWord 0x0FFF = .error .memoryOutOfRange ∧
    (after 0x1206).memRead 0x200 = .ok 0x12 ∧ (after 0x1206).memRead 0x201 = .ok 0x06 ∧
    (after 0x1206).memReadWord 0x200 = .ok 0x1206 := by decide
theorem witness_FetchSeesTheStoreBeforeIt : ∃ old : Nat → Byte, (atIndex 0x202).dataAddr 2 ≤ 0x0FFF ∧
    (atIndex 0x202).pc.toNat + 3 ≤ 0x0FFF ∧ ∀ a, a ≤ 0x0FFF → (atIndex 0x202).memRead a = .ok (old a) :=
  ⟨fun a => Memory.get defaultFont [] a, by decide, by decide, fun _ h => if_neg (Nat.not_lt.2 h)⟩
theorem witness_FetchSeesTheStoreBeforeIt_ends : (atIndex 0x0FFD).dataAddr 2 = 0x0FFF ∧
    { atIndex 0x202 with pc := 0x0FFC }.pc.toNat + 3 = 0x0FFF := by decide
theorem witness_RetPopsThePc : { State.reset with stack := [0x1000] }.stack = 0x1000 :: [] ∧
    (0x1000 : Word).toNat > 0x0FFE ∧ State.reset.stack = [] := by decide
theorem witness_JpSetsThePc : (0xFFF : Addr12).toNat > 0x0FFE := by decide
theorem witness_CallPushesTheReturnAddress :
    { State.reset with stack := List.replicate 15 0x202 }.cfg.stackDepth ≠
      some { State.reset with stack := List.replicate 15 0x202 }.sp ∧
    { State.reset with stack := List.replicate 16 0x202 }.cfg.stackDepth =
      some { State.reset with stack := List.replicate 16 0x202 }.sp := by decide
theorem witness_RetComesBackBehindTheCall : ∃ t, exec (.call 0x300) State.reset = .next t ∧
    State.reset.cfg.stackDepth ≠ some State.reset.sp ∧ { State.reset with stack := t.stack }.stack = t.stack :=
  ⟨_, rfl, by decide, rfl⟩
theorem witness_AddWritesSumAndCarry : (14 : Reg) ≠ 15 ∧ carryOut 0xFF 0x00 = false ∧ carryOut 0xFF 0x01 = true := by decide
theorem witness_SubWritesDifferenceAndNotBorrow : (0 : Reg) ≠ 15 ∧ notBorrow 7 7 = true ∧ notBorrow 6 7 = false := by decide
theorem witness_AddIIsBoundedByMemory : (atIndex 0x0FFF).I.toNat + ((atIndex 0x0FFF).readV 0).toNat ≤ 0x0FFF ∧
    (setV 0 1 (atIndex 0x0FFF)).I.toNat + ((setV 0 1 (atIndex 0x0FFF)).readV 0).toNat > 0x0FFF := by decide
theorem witness_LdBStoresTheDecimalDigits : (atIndex 0x0FFD).dataAddr 2 ≤ 0x0FFF ∧ (atIndex 0x0FFE).dataAddr 2 > 0x0FFF ∧
    ran (.ldB 0) (setV 0 255 (atIndex 0x0FFD)) (fun t => [0xFFC, 0xFFD, 0xFFE, 0xFFF].map fun a => (t.memRead a).toOption) =
      some [some 0, some 2, some 5, some 5] := by decide
theorem witness_LdVxMemLoadsUpToVx : (atIndex 0x0FFE).I.toNat + (0 : Reg).val + 1 ≤ 0x0FFF ∧
    (atIndex 0x0FFF).I.toNat + (0 : Reg).val + 1 > 0x0FFF ∧ (0 : Reg) ≤ 0 ∧ (0 : Reg) < 15 := by decide
theorem witness_DrwIsThePixelwiseXorOfTheSprite : ((0 : Nibble) = 0 ∨ (atIndex 0x0FFF).I.toNat + 0 - 1 ≤ 0x0FFF) ∧
    (atIndex 0x0FF1).I.toNat + (15 : Nibble).toNat - 1 ≤ 0x0FFF ∧ (15 : Nibble) ≠ 0 ∧
    (atIndex 0x0FF2).I.toNat + (15 : Nibble).toNat - 1 > 0x0FFF := by decide
theorem witness_DrawingTwiceRestoresTheFramebuffer : State.reset.I.toNat + (5 : Nibble).toNat - 1 ≤ 0x0FFF ∧
    ran (.drw 1 2 5) State.reset (fun t => (t.readV 1 = State.reset.readV 1 ∧ t.readV 2 = State.reset.readV 2 : Bool)) =
      some true := by decide
theorem witness_KeySkipsFollowTheKeyFlag : ((setV 1 15 State.reset).readV 1).toNat = (15 : KeyId).val ∧
    ((setV 1 16 State.reset).readV 1).toNat > 15 := by decide
theorem witness_InstructionsWriteOnlyTheirDestinations : (∃ t, exec (.subReg 1 2) State.reset = .next t) ∧
    ¬ destination (.subReg 1 2) 2 := ⟨⟨_, rfl⟩, by simp [destination, regVF]⟩
theorem witness_SpecialStateIsWrittenByItsInstructionsOnly :
    ran (.ldI 1) State.reset (fun t => (t.I ≠ State.reset.I : Bool)) = some true ∧
    ran (.call 2) State.reset (fun t => (t.stack ≠ State.reset.stack : Bool)) = some true ∧
    ran (.ldDTVx 0) (setV 0 1 State.reset) (fun t => (t.DT ≠ 0 : Bool)) = some true ∧
    ran (.ldSTVx 0) (setV 0 1 State.reset) (fun t => (t.ST ≠ 0 : Bool)) = some true ∧
    ran .cls State.reset (fun t => (t.dirty ≠ State.reset.dirty : Bool)) = some true ∧
    ran (.ldVxK 0) State.reset (fun t => (t.run ≠ State.reset.run : Bool)) = some true := by decide
theorem witness_OnlyRndSeesTheRandomByte : (∀ x nn, Instr.cls ≠ .rnd x nn) ∧ ∃ t, exec .cls State.reset = .next t :=
  ⟨fun _ _ => Instr.noConfusion, _, rfl⟩
theorem witness_ProgramsCannotObserveSoundDirtyAndCycles : ∃ t, exec .ret State.reset = .next t ∧
    t.run = .halted ⟨.stackUnderflow, 0x200, 0⟩ ∧ ∀ f, State.reset.run ≠ .halted f := ⟨_, rfl, rfl, fun _ h => by cases h⟩
theorem witness_TimersRiseOnlyByTheirLoads :
    stepped (after 0xF015 (setV 0 3)) (fun t => decide (t.DT.toNat > 0)) = some true ∧
    stepped (after 0xF018 (setV 0 3)) (fun t => decide (t.ST.toNat > 0)) = some true := by decide

/-- The reset memory is in canonical form, and a write of what an address reads as lists nothing. -/
theorem test_memory_canonical : Memory.wf defaultFont State.reset.mem ∧
    Memory.set defaultFont (Memory.set defaultFont [] 0x300 5) 0x300 0 = [] := by decide

end Sys2Proof.Tests
end

section
/-! SUPPORT. The meaning of the whole instruction set as one check and one write: the fault an instruction's checks
raise, and the state it leaves when they raise none (40_engine_cycle.md R81, steps 6 and 7). Every statement about all
instructions is then a case split over `completion`. -/

namespace Sys2Proof.Machine

/-- The fault that the checks of an instruction raise on a state (60_exceptions.md R202 to R205). -/
def raisedFault (i : Instr) (s : State) : Option Fault :=
  match i with
  | .ret => if s.stack = [] then some .stackUnderflow else none
  | .call _ => if s.cfg.stackDepth = some s.sp then some .stackOverflow else none
  | .drw _ _ n => if n.toNat ≠ 0 ∧ s.I.toNat + n.toNat - 1 > 0x0FFF then some .memoryOutOfRange else none
  | .skp x | .sknp x => if (s.readV x).toNat > 15 then some .keyIdOutOfRange else none
  | .addI x => if s.I.toNat + (s.readV x).toNat > 0x0FFF then some .memoryOutOfRange else none
  | .ldB _ => if s.I.toNat + 2 > 0x0FFF then some .memoryOutOfRange else none
  | .ldVxMem x => if s.I.toNat + x.val + 1 > 0x0FFF then some .memoryOutOfRange else none
  | _ => none

/-- The state with `pc` past this instruction, and past the next one too when the condition of a skip holds (R82). -/
def afterSkip (s : State) (cond : Bool) : State := s.setPc (if cond then s.pc + 4 else s.pc + 2)

/-- The state an instruction leaves when its checks raise no fault. -/
def completion (i : Instr) (s : State) : State :=
  match i with
  | .cls => { s with fb := blankFramebuffer, dirty := true }.advance
  | .ret => { s with stack := s.stack.tail, pc := s.stack.headD s.pc }
  | .jp nnn => s.setPc (addrOperand nnn)
  | .call nnn => { s with stack := (s.pc + 2) :: s.stack, pc := addrOperand nnn }
  | .seImm x nn => afterSkip s (s.readV x == nn)
  | .sneImm x nn => afterSkip s (s.readV x != nn)
  | .ldImm x nn => (s.writeV x nn).advance
  | .addImm x nn => (s.writeV x (addResult (s.readV x) nn)).advance
  | .ldReg x y => (s.writeV x (s.readV y)).advance
  | .andReg x y => (s.writeV x (s.readV x &&& s.readV y)).advance
  | .addReg x y =>
    (s.writeFlagThenResult x (carryOut (s.readV x) (s.readV y)) (addResult (s.readV x) (s.readV y))).advance
  | .subReg x y =>
    (s.writeFlagThenResult x (notBorrow (s.readV x) (s.readV y)) (subResult (s.readV x) (s.readV y))).advance
  | .sneReg x y => afterSkip s (s.readV x != s.readV y)
  | .ldI nnn => { s with I := addrOperand nnn }.advance
  | .rnd x nn => (s.writeV x (s.random &&& nn)).advance
  | .drw x y n =>
    (s.commitDrawing (drawSprite (s.readV x).toNat (s.readV y).toNat
      ((List.range' s.I.toNat n.toNat).map (Memory.get s.cfg.font s.mem)) s.fb)).advance
  | .skp x => afterSkip s (s.keyDown (Fin.ofNat 16 (s.readV x).toNat))
  | .sknp x => afterSkip s (!s.keyDown (Fin.ofNat 16 (s.readV x).toNat))
  | .ldVxDT x => (s.writeV x s.DT).advance
  | .ldVxK x => { s with run := .waitingForKey x }.advance
  | .ldDTVx x => { s with DT := s.readV x }.advance
  | .ldSTVx x => { s with ST := s.readV x }.advance
  | .addI x => { s with I := BitVec.ofNat 16 (s.I.toNat + (s.readV x).toNat) }.advance
  | .ldF x => { s with I := BitVec.ofNat 16 ((s.readV x).toNat * 5) }.advance
  | .ldB x => { s with mem := loadBytes s.cfg.font s.mem s.I.toNat (bcdDigits (s.readV x)) }.advance
  | .ldVxMem x =>
    { s with
      V := loadRegs s.V 0 ((List.range' s.I.toNat (x.val + 1)).map (Memory.get s.cfg.font s.mem))
      I := BitVec.ofNat 16 (s.I.toNat + x.val + 1) }.advance

/-- The dispatch is the check and then the write: fault entry when the check raises a fault, else the completion. -/
theorem exec_eq (i : Instr) (s : State) :
    exec i s = .next ((raisedFault i s).elim (completion i s) s.takeFault) := by
  have faults {k : Fault} (h : raisedFault i s = some k) (e : exec i s = .next (s.takeFault k)) :
      exec i s = .next ((raisedFault i s).elim (completion i s) s.takeFault) := by rw [h, e]; rfl
  have completes (h : raisedFault i s = none) (e : exec i s = .next (completion i s)) :
      exec i s = .next ((raisedFault i s).elim (completion i s) s.takeFault) := by rw [h, e]; rfl
  have skips {c d : Bool} (h : c = d) (e : exec i s = .next (s.skipIf c)) : exec i s = .next (afterSkip s d) := by
    rw [e, h, skipIf_eq, afterSkip]
  cases i with
  | ret =>
    rcases exec_ret_cases s with ⟨h, e⟩ | ⟨a, rest, h, e⟩
    · exact faults (if_pos h) e
    · exact completes (if_neg (by simp [h])) (by simp [e, completion, h])
  | call nnn =>
    rcases exec_call_cases nnn s with ⟨h, e⟩ | ⟨h, e⟩
    · exact faults (if_pos h) e
    · exact completes (if_neg h) e
  | drw x y n =>
    rcases exec_drw_cases x y n s with ⟨h0, h, e⟩ | ⟨h, e⟩
    · exact faults (if_pos ⟨h0, h⟩) e
    · exact completes (if_neg (by omega)) e
  | skp x =>
    rcases exec_skp_cases x s with ⟨h, e⟩ | ⟨k, h, e⟩
    · exact faults (if_pos h) e
    · exact completes (if_neg (by omega)) (skips (by simp [h]) e)
  | sknp x =>
    rcases exec_sknp_cases x s with ⟨h, e⟩ | ⟨k, h, e⟩
    · exact faults (if_pos h) e
    · exact completes (if_neg (by omega)) (skips (by simp [h]) e)
  | addI x =>
    rcases exec_addI_cases x s with ⟨h, e⟩ | ⟨h, e⟩
    · exact faults (if_pos h) e
    · exact completes (if_neg (by omega)) e
  | ldB x =>
    rcases exec_ldB_cases x s with ⟨h, e⟩ | ⟨h, e⟩
    · exact faults (if_pos h) e
    · exact completes (if_neg (by omega)) e
  | ldVxMem x =>
    rcases exec_ldVxMem_cases x s with ⟨h, e⟩ | ⟨h, e⟩
    · exact faults (if_pos h) e
    · exact completes (if_neg (by omega)) e
  | seImm | sneImm | sneReg => exact completes rfl (skips rfl rfl)
  | _ => exact completes rfl rfl

theorem exec_of_raisedFault {i : Instr} {s : State} {k : Fault} (h : raisedFault i s = some k) :
    exec i s = .next (s.takeFault k) := by rw [exec_eq, h]; rfl

theorem exec_of_no_fault {i : Instr} {s : State} (h : raisedFault i s = none) :
    exec i s = .next (completion i s) := by rw [exec_eq, h]; rfl

/-- Everything an instruction can do. -/
theorem exec_next_cases {i : Instr} {s t : State} (h : exec i s = .next t) :
    (∃ k, raisedFault i s = some k ∧ t = s.takeFault k) ∨ (raisedFault i s = none ∧ t = completion i s) := by
  cases hf : raisedFault i s with
  | some k => exact .inl ⟨k, rfl, Host.Outcome.next.inj (h.symm.trans (exec_of_raisedFault hf))⟩
  | none => exact .inr ⟨rfl, Host.Outcome.next.inj (h.symm.trans (exec_of_no_fault hf))⟩

end Sys2Proof.Machine
end

section
/-! SUPPORT. What a completed instruction writes, one lemma per piece of state: the value stays, or the instruction is
one of those the spec names (10_state.md R10, R29). -/

namespace Sys2Proof.Machine

theorem readV_commitDrawing (s : State) (d : Drawing) {k : Reg} (h : k ≠ regVF) :
    (s.commitDrawing d).readV k = s.readV k := readV_writeV_ne _ _ h

theorem readV_writeFlagThenResult (s : State) (flag : Bool) (v : Byte) {x k : Reg} (hx : k ≠ x) (hf : k ≠ regVF) :
    (s.writeFlagThenResult x flag v).readV k = s.readV k :=
  (readV_writeV_ne _ _ hx).trans (readV_writeV_ne _ _ hf)

/-- A load of at most `k` bytes from `V[0]` on does not reach `V[k]`. -/
theorem loadRegs_above (V : Vector Byte 16) (bs : List Byte) {k : Reg} (h : bs.length ≤ k.val) :
    (loadRegs V 0 bs)[k] = V[k] := by
  rw [loadRegs_getElem, if_pos (Nat.zero_le _), Nat.sub_zero, List.getElem?_eq_none h, Option.getD_none]

theorem readV_completion (i : Instr) (s : State) {k : Reg} (h : ¬ destination i k) :
    (completion i s).readV k = s.readV k := by
  cases i with
  | ldImm | addImm | ldReg | andReg | rnd | ldVxDT => exact readV_writeV_ne s _ h
  | addReg | subReg =>
    obtain ⟨hx, hf⟩ := not_or.1 h
    exact readV_writeFlagThenResult s _ _ hx hf
  | drw => exact readV_commitDrawing s _ h
  | ldVxMem x =>
    have hx : x.val + 1 ≤ k.val := not_le.1 h
    exact loadRegs_above s.V _ (by simpa using hx)
  | _ => rfl

theorem completion_I (i : Instr) (s : State) : (completion i s).I = s.I ∨
    (∃ nnn, i = .ldI nnn) ∨ ∃ x, i = .addI x ∨ i = .ldF x ∨ i = .ldVxMem x := by
  cases i with
  | ldI nnn => exact .inr (.inl ⟨nnn, rfl⟩)
  | addI x => exact .inr (.inr ⟨x, .inl rfl⟩)
  | ldF x => exact .inr (.inr ⟨x, .inr (.inl rfl)⟩)
  | ldVxMem x => exact .inr (.inr ⟨x, .inr (.inr rfl)⟩)
  | _ => exact .inl rfl

theorem completion_stack (i : Instr) (s : State) :
    (completion i s).stack = s.stack ∨ i = .ret ∨ ∃ nnn, i = .call nnn := by
  cases i with
  | ret => exact .inr (.inl rfl)
  | call nnn => exact .inr (.inr ⟨nnn, rfl⟩)
  | _ => exact .inl rfl

theorem completion_mem (i : Instr) (s : State) : (completion i s).mem = s.mem ∨ ∃ x, i = .ldB x := by
  cases i with
  | ldB x => exact .inr ⟨x, rfl⟩
  | _ => exact .inl rfl

theorem completion_DT (i : Instr) (s : State) : (completion i s).DT = s.DT ∨ ∃ x, i = .ldDTVx x := by
  cases i with
  | ldDTVx x => exact .inr ⟨x, rfl⟩
  | _ => exact .inl rfl

theorem completion_ST (i : Instr) (s : State) : (completion i s).ST = s.ST ∨ ∃ x, i = .ldSTVx x := by
  cases i with
  | ldSTVx x => exact .inr ⟨x, rfl⟩
  | _ => exact .inl rfl

theorem completion_display (i : Instr) (s : State) :
    ((completion i s).fb = s.fb ∧ (completion i s).dirty = s.dirty) ∨ i = .cls ∨ ∃ x y n, i = .drw x y n := by
  cases i with
  | cls => exact .inr (.inl rfl)
  | drw x y n => exact .inr (.inr ⟨x, y, n, rfl⟩)
  | _ => exact .inl ⟨rfl, rfl⟩

theorem completion_completed (i : Instr) (s : State) : Completed i s (completion i s) := by
  cases i with
  | ldVxK x => exact ⟨.inr ⟨x, rfl, rfl⟩, rfl, rfl, rfl, rfl, rfl, rfl⟩
  | _ => exact ⟨.inl rfl, rfl, rfl, rfl, rfl, rfl, rfl⟩

end Sys2Proof.Machine
end

section
/-! SUPPORT. The invariant of the machine (95_test_vectors.md section 6, 1 to 3): it speaks of five fields only, every
completed instruction keeps each of its clauses, and so does every event. -/

namespace Sys2Proof.Machine

/-- The invariant depends on memory, the parameters, `I`, `pc` and the stack alone. -/
theorem State.Inv.congr {s t : State} (h : s.Inv) (hmem : t.mem = s.mem) (hcfg : t.cfg = s.cfg) (hI : t.I = s.I)
    (hpc : t.pc = s.pc) (hstack : t.stack = s.stack) : t.Inv where
  mem_canonical := by rw [hmem, hcfg]; exact h.mem_canonical
  index_in_range := by rw [hI]; exact h.index_in_range
  pc_in_range := by rw [hpc]; exact h.pc_in_range
  stack_entries_in_range := by rw [hstack]; exact h.stack_entries_in_range
  stack_within_depth := by rw [hcfg, State.sp, hstack]; exact h.stack_within_depth

/-! ## One clause at a time, over the completed instructions -/

theorem completion_mem_canonical {i : Instr} {s : State} (h : s.Inv) (hf : raisedFault i s = none) :
    Memory.wf s.cfg.font (completion i s).mem := by
  rcases completion_mem i s with e | ⟨x, rfl⟩
  · exact e ▸ h.mem_canonical
  · have hI : s.I.toNat + 2 ≤ 0x0FFF := by simpa [raisedFault] using hf
    have hfits : s.I.toNat + (bcdDigits (s.readV x)).length ≤ memSize := Nat.succ_le_succ hI
    exact loadBytes_keeps_wf _ hfits h.mem_canonical

theorem completion_index_in_range {i : Instr} {s : State} (h : s.Inv) (hf : raisedFault i s = none) :
    (completion i s).I.toNat ≤ 0x0FFF := by
  cases i with
  | ldI nnn =>
    show (addrOperand nnn).toNat ≤ 0x0FFF
    rw [toNat_addrOperand]; omega
  | ldF x =>
    show (BitVec.ofNat 16 ((s.readV x).toNat * 5)).toNat ≤ 0x0FFF
    rw [toNat_ofNat_index] <;> omega
  | addI x =>
    have hI : s.I.toNat + (s.readV x).toNat ≤ 0x0FFF := by simpa [raisedFault] using hf
    exact (toNat_ofNat_index hI).trans_le hI
  | ldVxMem x =>
    have hI : s.I.toNat + x.val + 1 ≤ 0x0FFF := by simpa [raisedFault] using hf
    exact (toNat_ofNat_index hI).trans_le hI
  | _ => exact h.index_in_range

theorem afterSkip_pc_in_range {s : State} (c : Bool) (hpc : s.pc.toNat ≤ 0x0FFE) :
    (afterSkip s c).pc.toNat ≤ 0x1002 := by
  cases c
  · show (s.pc + 2#16).toNat ≤ 0x1002; bv_omega
  · show (s.pc + 4#16).toNat ≤ 0x1002; bv_omega

theorem completion_pc_in_range {i : Instr} {s : State} (h : s.Inv) (hpc : s.pc.toNat ≤ 0x0FFE)
    (hf : raisedFault i s = none) : (completion i s).pc.toNat ≤ 0x1002 := by
  have next : (s.pc + 2#16).toNat ≤ 0x1002 := by bv_omega
  have target (nnn : Addr12) : (addrOperand nnn).toNat ≤ 0x1002 := by rw [toNat_addrOperand]; omega
  cases i with
  | ret =>
    cases hs : s.stack with
    | nil => simp [raisedFault, hs] at hf
    | cons a rest =>
      have ha := (h.stack_entries_in_range a (by simp [hs])).2
      simp only [completion, hs, List.headD_cons]
      omega
  | jp nnn | call nnn => exact target nnn
  | seImm | sneImm | sneReg | skp | sknp => exact afterSkip_pc_in_range _ hpc
  | _ => exact next

theorem completion_stack_entries_in_range {s : State} (i : Instr) (h : s.Inv) (hpc : s.pc.toNat ≤ 0x0FFE) :
    ∀ a ∈ (completion i s).stack, 2 ≤ a.toNat ∧ a.toNat ≤ 0x1000 := by
  cases i with
  | ret => exact fun a ha => h.stack_entries_in_range a (List.mem_of_mem_tail ha)
  | call nnn =>
    have next : 2 ≤ (s.pc + 2#16).toNat ∧ (s.pc + 2#16).toNat ≤ 0x1000 := by constructor <;> bv_omega
    exact List.forall_mem_cons.2 ⟨next, h.stack_entries_in_range⟩
  | _ => exact h.stack_entries_in_range

theorem completion_stack_within_depth {i : Instr} {s : State} (h : s.Inv) (hf : raisedFault i s = none) :
    ∀ d, s.cfg.stackDepth = some d → (completion i s).sp ≤ d := by
  intro d hd
  have hsp := h.stack_within_depth d hd
  cases i with
  | ret => exact (List.length_tail.trans_le (Nat.sub_le _ 1)).trans hsp
  | call nnn =>
    have hne : d ≠ s.sp := by simpa [raisedFault, hd] using hf
    exact lt_of_le_of_ne hsp hne.symm
  | _ => exact hsp

/-- An instruction fetched from memory keeps the invariant: it completes or faults. -/
theorem exec_keeps_inv {i : Instr} {s t : State} (h : s.Inv) (hpc : s.pc.toNat ≤ 0x0FFE) (he : exec i s = .next t) :
    t.Inv := by
  rcases exec_next_cases he with ⟨k, -, rfl⟩ | ⟨hf, rfl⟩
  · exact h.congr rfl rfl rfl rfl rfl
  · have hcfg := (completion_completed i s).cfg
    exact {
      mem_canonical := by rw [hcfg]; exact completion_mem_canonical h hf
      index_in_range := completion_index_in_range h hf
      pc_in_range := completion_pc_in_range h hpc hf
      stack_entries_in_range := completion_stack_entries_in_range i h hpc
      stack_within_depth := by rw [hcfg]; exact completion_stack_within_depth h hf }

/-! ## The events -/

/-- A fetch that gives a word read it inside memory (R81, D3). -/
theorem pc_le_of_fetch {s : State} {w : Word} (h : s.fetch = .ok w) : s.pc.toNat ≤ 0x0FFE := by
  by_contra hpc
  rw [fetch_past_end (by omega)] at h
  cases h

theorem cycle_keeps_inv {r : Byte} {s t : State} (h : s.Inv) (hc : cycle r s = .next t) : t.Inv := by
  cases hr : s.run with
  | waitingForKey w => exact Host.Outcome.next.inj ((cycle_of_waiting hr).symm.trans hc) ▸ h
  | halted f => exact Host.Outcome.next.inj ((cycle_of_halted hr).symm.trans hc) ▸ h
  | running =>
    have drawn : ({ s with random := r } : State).Inv := h.congr rfl rfl rfl rfl rfl
    rcases cycle_running_cases r hr with ⟨k, e⟩ | ⟨w, i, u, hw, -, he, -, e⟩
    · exact Host.Outcome.next.inj (e.symm.trans hc) ▸ drawn.congr rfl rfl rfl rfl rfl
    · have hu : u.Inv := exec_keeps_inv drawn (pc_le_of_fetch hw) he
      exact Host.Outcome.next.inj (e.symm.trans hc) ▸ hu.congr rfl rfl rfl rfl rfl

theorem tick_keeps_inv {s : State} (h : s.Inv) : s.tick.Inv := by
  unfold State.tick
  split
  · exact h
  · exact h.congr rfl rfl rfl rfl rfl

theorem keyEvent_keeps_inv {s : State} (id : KeyId) (pressed : Bool) (h : s.Inv) : (s.keyEvent id pressed).Inv := by
  unfold State.keyEvent
  split <;> exact h.congr rfl rfl rfl rfl rfl

/-- The machine `Construct` builds meets the invariant, whatever the old one was. -/
theorem construct_inv (s : State) {rom : List Byte} (h : rom.length ≤ romMax) : (s.construct rom).Inv where
  mem_canonical := loadBytes_keeps_wf rom (by simp only [romBase, romMax, memSize] at h ⊢; omega) (wf_nil _)
  index_in_range := Nat.zero_le _
  pc_in_range := show (0x0200#16).toNat ≤ 0x1002 by decide
  stack_entries_in_range := List.forall_mem_nil _
  stack_within_depth := fun d _ => Nat.zero_le d

theorem constructEvent_of_fits (s : State) {rom : List Byte} (h : rom.length ≤ romMax) :
    constructEvent rom s = .next (s.construct rom) := by
  simp [constructEvent, romWellFormed, h]

theorem constructEvent_of_overlong (s : State) {rom : List Byte} (h : romMax < rom.length) :
    constructEvent rom s = .refused .romTooLong := by
  simp [constructEvent, romWellFormed, h]

theorem constructEvent_keeps_inv {rom : List Byte} {s t : State} (h : constructEvent rom s = .next t) : t.Inv := by
  rcases le_or_gt rom.length romMax with hl | hl
  · exact Host.Outcome.next.inj ((constructEvent_of_fits s hl).symm.trans h) ▸ construct_inv s hl
  · rw [constructEvent_of_overlong s hl] at h
    cases h

theorem deliver_keeps_inv {e : Event} {s t : State} (h : s.Inv) (hd : deliver e s = .next t) : t.Inv := by
  cases e with
  | cycle r => exact cycle_keeps_inv h hd
  | tick => exact Host.Outcome.next.inj hd ▸ tick_keeps_inv h
  | keyEvent id pressed => exact Host.Outcome.next.inj hd ▸ keyEvent_keeps_inv id pressed h
  | frameAck => exact Host.Outcome.next.inj hd ▸ h.congr rfl rfl rfl rfl rfl
  | construct rom => exact constructEvent_keeps_inv hd

/-- Settles O10: taking the event from the schedule touches no clause of the invariant, and every event keeps it. -/
theorem stepKeepsTheMachineInvariant : Obligations.StepKeepsTheMachineInvariant := by
  intro s t h hs
  have taken : s.takeEvent.Inv :=
    h.congr (takeEvent_mem s) (takeEvent_cfg s) (takeEvent_I s) (takeEvent_pc s) (takeEvent_stack s)
  exact deliver_keeps_inv taken hs

end Sys2Proof.Machine
end

section
/-! SUPPORT. The reset image (10_state.md R16, R17): what every address reads as after `Construct`. -/

namespace Sys2Proof.Machine

theorem imageByte_font (font : Vector Byte 80) {a : Nat} (h : a < 80) : imageByte font a = font[a] := dif_pos h

theorem imageByte_zero (font : Vector Byte 80) {a : Nat} (h : 80 ≤ a) : imageByte font a = 0 :=
  dif_neg (Nat.not_lt.2 h)

/-- An address that the ROM does not cover reads as the reset image. -/
theorem memRead_construct_outside {s : State} {rom : List Byte} {a : Nat} (ha : a ≤ lastAddr)
    (h : a < romBase ∨ romBase + rom.length ≤ a) :
    (s.construct rom).memRead a = .ok (imageByte s.cfg.font a) := by
  rw [memRead_inRange ha, State.construct, get_loadBytes, get_nil]
  split
  · rw [List.getElem?_eq_none (by omega), Option.getD_none]
  · rfl

/-- An address that the ROM covers reads as its byte. -/
theorem memRead_construct_rom {s : State} {rom : List Byte} {k : Nat} (hr : rom.length ≤ romMax) (h : k < rom.length) :
    (s.construct rom).memRead (romBase + k) = .ok rom[k] := by
  have ha : romBase + k ≤ lastAddr := by simp only [romBase, lastAddr, romMax] at hr ⊢; omega
  rw [memRead_inRange ha, State.construct, get_loadBytes, if_pos (Nat.le_add_right _ _), Nat.add_sub_cancel_left,
    List.getElem?_eq_getElem h, Option.getD_some]

/-- Settles O19: the font and the zeros are the reset image where the ROM is not, the rest is the ROM. -/
theorem constructLoadsTheResetImage : Obligations.ConstructLoadsTheResetImage := by
  intro s rom hr
  refine ⟨s.construct rom, constructEvent_of_fits s hr, rfl, fun a h => ?font, fun k h => memRead_construct_rom hr h,
    fun a h80 hmax hout => ?zero, fun a h => memRead_outOfRange h⟩
  case font =>
    rw [memRead_construct_outside (by simp only [lastAddr]; omega) (by simp only [romBase]; omega), imageByte_font _ h]
  case zero => rw [memRead_construct_outside hmax hout, imageByte_zero _ h80]

end Sys2Proof.Machine
end

section
/-! The statements about the whole instruction set (10_state.md R10, R11, R29, R30). -/

namespace Sys2Proof.Machine

/-- Settles O43: a fault writes no register, and a completed instruction only its destinations. -/
theorem instructionsWriteOnlyTheirDestinations : Obligations.InstructionsWriteOnlyTheirDestinations := by
  intro i s t k h hk
  rcases exec_next_cases h with ⟨f, -, rfl⟩ | ⟨-, rfl⟩
  · exact readV_takeFault s f k
  · exact readV_completion i s hk

/-- Settles O44: a fault writes `run` alone, and for a completed instruction there is a lemma per piece of state. -/
theorem specialStateIsWrittenByItsInstructionsOnly : Obligations.SpecialStateIsWrittenByItsInstructionsOnly := by
  intro i s t h
  rcases exec_next_cases h with ⟨f, -, rfl⟩ | ⟨-, rfl⟩
  · exact ⟨fun c => absurd rfl c, fun c => absurd rfl c, fun c => absurd rfl c, fun c => absurd rfl c,
      fun c => c.elim (absurd rfl) (absurd rfl), fun _ => .inl rfl, rfl, rfl, rfl, rfl, rfl, rfl⟩
  · obtain ⟨hrun, hcycles, hcfg, hkeys, hrandom, hdraws, hschedule⟩ := completion_completed i s
    exact ⟨(completion_I i s).resolve_left, (completion_stack i s).resolve_left, (completion_DT i s).resolve_left,
      (completion_ST i s).resolve_left,
      fun c => (completion_display i s).resolve_left fun ⟨hfb, hdirty⟩ => c.elim (absurd hfb) (absurd hdirty),
      fun c => (hrun.resolve_left c).elim fun x ⟨hi, _⟩ => .inr ⟨x, hi⟩,
      hkeys, hcycles, hcfg, hrandom, hdraws, hschedule⟩

/-- The state with other values of the three fields a program cannot observe (R30). -/
def State.withUnobserved (s : State) (st : Byte) (d : Bool) (n : Nat) : State :=
  { s with ST := st, dirty := d, cycles := n }

/-- No check of an instruction looks at an unobserved field. -/
theorem raisedFault_withUnobserved (i : Instr) (s : State) (st : Byte) (d : Bool) (n : Nat) :
    raisedFault i (s.withUnobserved st d n) = raisedFault i s := by cases i <;> rfl

/-- No write of an instruction to an observed field looks at an unobserved one. -/
theorem completion_withUnobserved (i : Instr) (s : State) (st : Byte) (d : Bool) (n : Nat) :
    ∃ st' d' n', completion i (s.withUnobserved st d n) = (completion i s).withUnobserved st' d' n' := by
  cases i <;> exact ⟨_, _, _, rfl⟩

/-- Settles O46: both machines fault with the same kind, or both complete to states equal but for the unobserved
fields; a completed instruction never enters Halted. -/
theorem programsCannotObserveSoundDirtyAndCycles : Obligations.ProgramsCannotObserveSoundDirtyAndCycles := by
  intro i s t st d n h
  have sameFault := raisedFault_withUnobserved i s st d n
  rcases exec_next_cases h with ⟨k, hf, rfl⟩ | ⟨hf, rfl⟩
  · refine ⟨(s.withUnobserved st d n).takeFault k, exec_of_raisedFault (sameFault.trans hf), rfl, fun f hk _ => ?_,
      fun hn => nomatch hn⟩
    obtain rfl : ⟨k, s.pc, s.cycles⟩ = f := RunState.halted.inj hk
    exact ⟨_, rfl, rfl, rfl⟩
  · obtain ⟨st', d', n', hu⟩ := completion_withUnobserved i s st d n
    refine ⟨(completion i s).withUnobserved st' d' n', hu ▸ exec_of_no_fault (sameFault.trans hf), rfl,
      fun f ht hs => ?_, fun _ => rfl⟩
    rcases (completion_completed i s).run with e | ⟨x, -, e⟩
    · exact absurd (e ▸ ht) hs
    · cases e.symm.trans ht

end Sys2Proof.Machine
end

section
/-! SUPPORT. The access primitives of 20_memory.md read back: the word of two bytes (R41, R43), a byte after a store
(R42), and which instruction stores. -/

namespace Sys2Proof.Machine

/-! ## Word reads -/

theorem memReadWord_outOfRange {s : State} {a : Nat} (h : lastAddr < a + 1) :
    s.memReadWord a = .error .memoryOutOfRange := if_pos h

/-- Where both bytes can be read, the word is the byte at the lower address before the other. -/
theorem memReadWord_of_bytes {s : State} {a : Nat} {hi lo : Byte} (hhi : s.memRead a = .ok hi)
    (hlo : s.memRead (a + 1) = .ok lo) : s.memReadWord a = .ok (wordOfBytes hi lo) := by
  obtain ⟨-, rfl⟩ := memRead_ok hhi
  obtain ⟨hrange, rfl⟩ := memRead_ok hlo
  exact if_neg (Nat.not_lt.2 hrange)

/-! ## Stores -/

theorem memWrite_outOfRange {s : State} {a : Nat} {v : Byte} (h : lastAddr < a) :
    s.memWrite a v = .error .memoryOutOfRange := if_pos h

/-- The state a store in range leaves (R42). -/
def State.withByte (s : State) (a : Nat) (v : Byte) : State := { s with mem := Memory.set s.cfg.font s.mem a v }

theorem memWrite_eq_withByte {s : State} {a : Nat} {v : Byte} (h : a ≤ lastAddr) :
    s.memWrite a v = .ok (s.withByte a v) := memWrite_inRange h

theorem memRead_withByte_same (s : State) {a : Nat} (v : Byte) (h : a ≤ lastAddr) :
    (s.withByte a v).memRead a = .ok v := by
  rw [memRead_inRange h, State.withByte, get_set, if_pos rfl]

theorem memRead_withByte_ne (s : State) {a b : Nat} (v : Byte) (h : b ≠ a) :
    (s.withByte a v).memRead b = s.memRead b := by
  rcases le_or_gt b lastAddr with hb | hb
  · rw [memRead_inRange hb, memRead_inRange hb, State.withByte, get_set, if_neg h]
  · rw [memRead_outOfRange hb, memRead_outOfRange hb]

/-- Every instruction but FX33 leaves memory as it was, whether it completes or faults (R42). -/
theorem exec_mem {i : Instr} {s t : State} (hi : ∀ x, i ≠ .ldB x) (h : exec i s = .next t) : t.mem = s.mem := by
  rcases exec_next_cases h with ⟨k, -, rfl⟩ | ⟨-, rfl⟩
  · exact takeFault_mem s k
  · exact (completion_mem i s).resolve_right fun ⟨x, hx⟩ => hi x hx

/-- The parameters of the hardware are written by no instruction. -/
theorem exec_cfg {i : Instr} {s t : State} (h : exec i s = .next t) : t.cfg = s.cfg := by
  rcases exec_next_cases h with ⟨k, -, rfl⟩ | ⟨-, rfl⟩
  · exact takeFault_cfg s k
  · exact (completion_completed i s).cfg

/-! ## The store of FX33 -/

theorem raisedFault_ldB_inRange {s : State} (x : Reg) (h : s.dataAddr 2 ≤ 0x0FFF) :
    raisedFault (.ldB x) s = none := if_neg (Nat.not_lt.2 h)

/-- A byte read after FX33: the digit stored there where the store covers the address, else the old byte (R143). -/
theorem memRead_completion_ldB {s : State} (x : Reg) {a : Nat} {old : Byte} (hold : s.memRead a = .ok old) :
    (completion (.ldB x) s).memRead a =
      .ok (if s.I.toNat ≤ a then ((bcdDigits (s.readV x))[a - s.I.toNat]?).getD old else old) := by
  obtain ⟨ha, rfl⟩ := memRead_ok hold
  rw [memRead_inRange ha]
  exact congrArg Except.ok (get_loadBytes s.cfg.font (bcdDigits (s.readV x)) s.mem s.I.toNat a)

end Sys2Proof.Machine
end

section
/-! The statements about memory (20_memory.md). -/

namespace Sys2Proof.Machine

/-- Settles O21: the store is `State.withByte`, and `exec_mem` names the only instruction that stores. -/
theorem storeWritesOneByteAndOnlyLdBStores : Obligations.StoreWritesOneByteAndOnlyLdBStores := by
  refine ⟨fun s a v h => memWrite_outOfRange h, fun s a v h => ?inRange, fun i s t hi he => ?others⟩
  case inRange =>
    exact ⟨s.withByte a v, memWrite_eq_withByte h, rfl, memRead_withByte_same s v h,
      fun b hb => memRead_withByte_ne s v hb⟩
  case others =>
    have hmem : t.mem = s.mem := exec_mem hi he
    exact ⟨hmem, memRead_congr hmem (exec_cfg he)⟩

/-- Settles O23: FX33 in range completes, `pc + 2` does not wrap, and the fetch there reads two bytes after the store. -/
theorem fetchSeesTheStoreBeforeIt : Obligations.FetchSeesTheStoreBeforeIt := by
  intro s x old hstore hfetch hold
  have hpc : (completion (.ldB x) s).pc.toNat = s.pc.toNat + 2 := by
    show (s.pc + 2#16).toNat = s.pc.toNat + 2
    bv_omega
  refine ⟨completion (.ldB x) s, exec_of_no_fault (raisedFault_ldB_inRange x hstore), fetch_of_bytes ?hi ?lo⟩
  case hi =>
    rw [hpc]
    exact memRead_completion_ldB x (hold _ (by omega))
  case lo =>
    rw [hpc]
    exact memRead_completion_ldB x (hold _ (by omega))

/-- Settles O22: each range check on both of its sides, and the order of the two bytes of a word. -/
theorem readsAreCheckedAndBigEndian : Obligations.ReadsAreCheckedAndBigEndian := by
  intro s a
  exact ⟨memRead_outOfRange, fun h => ⟨_, memRead_inRange h⟩, memReadWord_outOfRange,
    fun _ _ hhi hlo => memReadWord_of_bytes hhi hlo⟩

end Sys2Proof.Machine
end

section
/-! SUPPORT. The decoder as a relation between words and rows of the opcode map (30_encoding.md R63, R64): no word
selects two rows, so `decodeWord` answers exactly what the selected row builds. And what a row's selection says of the
word as a number, mask by mask. -/

namespace Sys2Proof.Laws

/-! ## No word selects two rows (R64) -/

/-- Two rows fix some bit differently: under the mask of the other, their values differ. -/
def Row.Apart (r q : Row) : Prop := r.value &&& q.mask ≠ q.value &&& r.mask

theorem apart_symm : Std.Symm Row.Apart := ⟨fun _ _ h => Ne.symm h⟩

/-- A word that selects both rows shows that they are not apart: both masks applied to it give both sides. -/
theorem not_apart_of_selects {r q : Row} {w : Word} (hr : r.selects w = true) (hq : q.selects w = true) :
    ¬ Row.Apart r q := by
  have hrv : w &&& r.mask = r.value := beq_iff_eq.1 hr
  have hqv : w &&& q.mask = q.value := beq_iff_eq.1 hq
  exact not_not.2 (by rw [← hrv, ← hqv, BitVec.and_assoc, BitVec.and_assoc, BitVec.and_comm r.mask])

/-- The values and masks of the table: any two of its rows are apart. -/
theorem opcodeRows_apart : opcodeRows.Pairwise Row.Apart := by
  unfold Row.Apart; decide

theorem selected_row_unique {w : Word} {r q : Row} (hr : r ∈ opcodeRows) (hq : q ∈ opcodeRows)
    (hrw : r.selects w = true) (hqw : q.selects w = true) : r = q := by
  by_contra hne
  have := apart_symm
  exact not_apart_of_selects hrw hqw (opcodeRows_apart.forall hr hq hne)

/-! ## What the decoder answers -/

theorem decodeWord_of_selects {w : Word} {r : Row} (hr : r ∈ opcodeRows) (hw : r.selects w = true) :
    decodeWord w = .ok (r.build (fields w)) := by
  cases hf : opcodeRows.find? (fun q => q.selects w) with
  | none => exact absurd hw (List.find?_eq_none.1 hf r hr)
  | some q =>
    have hqw : q.selects w = true := by simpa using List.find?_some hf
    rw [selected_row_unique hr (List.mem_of_find?_eq_some hf) hw hqw, decodeWord, hf]

theorem decodeWord_of_no_row {w : Word} (h : ¬ ∃ r ∈ opcodeRows, r.selects w = true) :
    decodeWord w = .error (illegalRegion w) := by
  have hf : opcodeRows.find? (fun r => r.selects w) = none :=
    List.find?_eq_none.2 fun r hr hw => h ⟨r, hr, hw⟩
  rw [decodeWord, hf]

theorem decodeWord_eq_ok_iff {w : Word} {i : Instr} :
    decodeWord w = .ok i ↔ ∃ r ∈ opcodeRows, r.selects w = true ∧ r.build (fields w) = i := by
  constructor
  · intro h
    by_cases hs : ∃ r ∈ opcodeRows, r.selects w = true
    · obtain ⟨r, hr, hw⟩ := hs
      exact ⟨r, hr, hw, Except.ok.inj ((decodeWord_of_selects hr hw).symm.trans h)⟩
    · cases (decodeWord_of_no_row hs).symm.trans h
  · rintro ⟨r, hr, hw, rfl⟩
    exact decodeWord_of_selects hr hw

theorem decodeWord_refuses_iff {w : Word} :
    (∃ e, decodeWord w = .error e) ↔ ¬ ∃ r ∈ opcodeRows, r.selects w = true := by
  constructor
  · rintro ⟨e, he⟩ ⟨r, hr, hw⟩
    cases he.symm.trans (decodeWord_of_selects hr hw)
  · exact fun h => ⟨_, decodeWord_of_no_row h⟩

/-! ## A row's selection as an equation of numbers -/

/-- A number is given by its group, the primary nibble, and the 12 bits below it. -/
theorem group_and_rest_iff {q m c : Nat} (hm : m < 4096) : q * 4096 + m = c ↔ q = c / 4096 ∧ m = c % 4096 := by
  omega

section
variable {r : Row} {w : Word}

theorem selects_iff_toNat : r.selects w = true ↔ (w &&& r.mask).toNat = r.value.toNat :=
  beq_iff_eq.trans BitVec.toNat_inj.symm

theorem selects_iff_of_mask_F000 (hm : r.mask = 0xF000#16) :
    r.selects w = true ↔ w.toNat / 4096 = r.value.toNat / 4096 ∧ 0 = r.value.toNat % 4096 := by
  rw [selects_iff_toNat, hm, toNat_and_F000, ← group_and_rest_iff (by norm_num), Nat.add_zero]

theorem selects_iff_of_mask_F00F (hm : r.mask = 0xF00F#16) :
    r.selects w = true ↔ w.toNat / 4096 = r.value.toNat / 4096 ∧ w.toNat % 16 = r.value.toNat % 4096 := by
  rw [selects_iff_toNat, hm, toNat_and_F00F]
  exact group_and_rest_iff (by omega)

theorem selects_iff_of_mask_F0FF (hm : r.mask = 0xF0FF#16) :
    r.selects w = true ↔ w.toNat / 4096 = r.value.toNat / 4096 ∧ w.toNat % 256 = r.value.toNat % 4096 := by
  rw [selects_iff_toNat, hm, toNat_and_F0FF]
  exact group_and_rest_iff (by omega)

theorem selects_iff_of_mask_FFFF (hm : r.mask = 0xFFFF#16) :
    r.selects w = true ↔ w.toNat = r.value.toNat := by
  rw [selects_iff_toNat, hm, toNat_and_FFFF]

end

end Sys2Proof.Laws
end

section
/-! SUPPORT. Encoding and decoding are inverse to each other, row by row of the opcode map (30_encoding.md R62, R63). -/

namespace Sys2Proof.Laws

/-! ## From the instruction to its word and back -/

/-- Every instruction is in the table: its word selects the row that builds it. -/
theorem matchesRow (i : Instr) : MatchesRow.Statement i := by
  cases i with
  | cls => exact MatchesRow.cls
  | ret => exact MatchesRow.ret
  | jp nnn => exact MatchesRow.jp nnn
  | call nnn => exact MatchesRow.call nnn
  | seImm x nn => exact MatchesRow.seImm x nn
  | sneImm x nn => exact MatchesRow.sneImm x nn
  | ldImm x nn => exact MatchesRow.ldImm x nn
  | addImm x nn => exact MatchesRow.addImm x nn
  | ldReg x y => exact MatchesRow.ldReg x y
  | andReg x y => exact MatchesRow.andReg x y
  | addReg x y => exact MatchesRow.addReg x y
  | subReg x y => exact MatchesRow.subReg x y
  | sneReg x y => exact MatchesRow.sneReg x y
  | ldI nnn => exact MatchesRow.ldI nnn
  | rnd x nn => exact MatchesRow.rnd x nn
  | drw x y n => exact MatchesRow.drw x y n
  | skp x => exact MatchesRow.skp x
  | sknp x => exact MatchesRow.sknp x
  | ldVxDT x => exact MatchesRow.ldVxDT x
  | ldVxK x => exact MatchesRow.ldVxK x
  | ldDTVx x => exact MatchesRow.ldDTVx x
  | ldSTVx x => exact MatchesRow.ldSTVx x
  | addI x => exact MatchesRow.addI x
  | ldF x => exact MatchesRow.ldF x
  | ldB x => exact MatchesRow.ldB x
  | ldVxMem x => exact MatchesRow.ldVxMem x

theorem decodeWord_encode (i : Instr) : decodeWord (encode i) = .ok i := decodeWord_eq_ok_iff.2 (matchesRow i)

theorem decode_encodeBytes (i : Instr) (rest : List Byte) : decode (encodeBytes i ++ rest) = .ok (i, rest) := by
  show decode (highByte (encode i) :: lowByte (encode i) :: rest) = _
  rw [decode_cons, wordOfBytes_bytes, decodeWord_encode]
  rfl

theorem decodeWord_of_encode {i : Instr} {w : Word} (h : encode i = w) : decodeWord w = .ok i :=
  h ▸ decodeWord_encode i

/-! ## From the word to its instruction and back -/

/-- A word that selects `r` is the word of the instruction `r` builds from its fields. -/
def Row.Rebuilds (r : Row) : Prop := ∀ w : Word, r.selects w = true → encode (r.build (fields w)) = w

section
variable {r : Row} {op : Nibble}

theorem rebuilds_of_fixed (hb : ∀ f, encode (r.build f) = r.value) (hm : r.mask = 0xFFFF#16) : Row.Rebuilds r := by
  intro w hw
  have hv : w.toNat = r.value.toNat := (selects_iff_of_mask_FFFF hm).1 hw
  exact (hb _).trans (BitVec.eq_of_toNat_eq hv.symm)

theorem rebuilds_of_formatA (hb : ∀ f, encode (r.build f) = formatA op f.nnn) (hm : r.mask = 0xF000#16)
    (hv : r.value.toNat = op.toNat * 4096) : Row.Rebuilds r := by
  intro w hw
  obtain ⟨hop, -⟩ := (selects_iff_of_mask_F000 hm).1 hw
  apply BitVec.eq_of_toNat_eq
  simp only [hb, toNat_formatA, toNat_nnn]
  omega

theorem rebuilds_of_formatI (hb : ∀ f, encode (r.build f) = formatI op f.regX f.nn)
    (hm : r.mask = 0xF000#16) (hv : r.value.toNat = op.toNat * 4096) : Row.Rebuilds r := by
  intro w hw
  obtain ⟨hop, -⟩ := (selects_iff_of_mask_F000 hm).1 hw
  apply BitVec.eq_of_toNat_eq
  simp only [hb, toNat_formatI, val_regX, toNat_nn]
  omega

theorem rebuilds_of_formatS {nn : Byte} (hb : ∀ f, encode (r.build f) = formatI op f.regX nn)
    (hm : r.mask = 0xF0FF#16) (hv : r.value.toNat = op.toNat * 4096 + nn.toNat) : Row.Rebuilds r := by
  intro w hw
  obtain ⟨hop, hnn⟩ := (selects_iff_of_mask_F0FF hm).1 hw
  apply BitVec.eq_of_toNat_eq
  simp only [hb, toNat_formatI, val_regX]
  omega

theorem rebuilds_of_formatR {n : Nibble} (hb : ∀ f, encode (r.build f) = formatR op f.regX f.regY n)
    (hm : r.mask = 0xF00F#16) (hv : r.value.toNat = op.toNat * 4096 + n.toNat) : Row.Rebuilds r := by
  intro w hw
  obtain ⟨hop, hn⟩ := (selects_iff_of_mask_F00F hm).1 hw
  apply BitVec.eq_of_toNat_eq
  simp only [hb, toNat_formatR, val_regX, val_regY]
  omega

theorem rebuilds_of_formatD (hb : ∀ f, encode (r.build f) = formatR op f.regX f.regY f.n)
    (hm : r.mask = 0xF000#16) (hv : r.value.toNat = op.toNat * 4096) : Row.Rebuilds r := by
  intro w hw
  obtain ⟨hop, -⟩ := (selects_iff_of_mask_F000 hm).1 hw
  apply BitVec.eq_of_toNat_eq
  simp only [hb, toNat_formatR, val_regX, val_regY, toNat_n]
  omega

end

theorem rowsLow_rebuild : ∀ r ∈ rowsLow, Row.Rebuilds r := by
  simp only [rowsLow, List.forall_mem_cons]
  refine ⟨?cls, ?ret, ?jp, ?call, ?seImm, ?sneImm, ?ldImm, ?addImm, List.forall_mem_nil _⟩
  case cls | ret => exact rebuilds_of_fixed (fun _ => rfl) rfl
  case jp | call => exact rebuilds_of_formatA (fun _ => rfl) rfl rfl
  case seImm | sneImm | ldImm | addImm => exact rebuilds_of_formatI (fun _ => rfl) rfl rfl

theorem rowsMiddle_rebuild : ∀ r ∈ rowsMiddle, Row.Rebuilds r := by
  simp only [rowsMiddle, List.forall_mem_cons]
  refine ⟨?ldReg, ?andReg, ?addReg, ?subReg, ?sneReg, ?ldI, ?rnd, ?drw, List.forall_mem_nil _⟩
  case ldReg | andReg | addReg | subReg | sneReg => exact rebuilds_of_formatR (fun _ => rfl) rfl rfl
  case ldI => exact rebuilds_of_formatA (fun _ => rfl) rfl rfl
  case rnd => exact rebuilds_of_formatI (fun _ => rfl) rfl rfl
  case drw => exact rebuilds_of_formatD (fun _ => rfl) rfl rfl

theorem rowsHigh_rebuild : ∀ r ∈ rowsHigh, Row.Rebuilds r := by
  simp only [rowsHigh, List.forall_mem_cons]
  refine ⟨?_, ?_, ?_, ?_, ?_, ?_, ?_, ?_, ?_, ?_, List.forall_mem_nil _⟩
  all_goals exact rebuilds_of_formatS (fun _ => rfl) rfl rfl

theorem opcodeRows_rebuild : ∀ r ∈ opcodeRows, Row.Rebuilds r :=
  List.forall_mem_append.2 ⟨List.forall_mem_append.2 ⟨rowsLow_rebuild, rowsMiddle_rebuild⟩, rowsHigh_rebuild⟩

/-! ## The words that select a row, as numbers (R65) -/

theorem selects_rowsLow_iff (w : Word) : (∃ r ∈ rowsLow, r.selects w = true) ↔
    (w.toNat / 0x1000 = 0x0 ∧ w.toNat ∈ [0x00E0, 0x00EE]) ∨ w.toNat / 0x1000 ∈ [0x1, 0x2, 0x3, 0x4, 0x6, 0x7] := by
  simp only [rowsLow, selects_iff_of_mask_F000, selects_iff_of_mask_FFFF, BitVec.ofNat_eq_ofNat, BitVec.toNat_ofNat,
    Nat.reducePow, Nat.reduceMod, Nat.reduceDiv, List.mem_cons, List.not_mem_nil, or_false, exists_eq_or_imp,
    exists_eq_left, and_true]
  omega

theorem selects_rowsMiddle_iff (w : Word) : (∃ r ∈ rowsMiddle, r.selects w = true) ↔
    (w.toNat / 0x1000 = 0x8 ∧ w.toNat % 16 ∈ [0x0, 0x2, 0x4, 0x5]) ∨ (w.toNat / 0x1000 = 0x9 ∧ w.toNat % 16 = 0) ∨
    w.toNat / 0x1000 ∈ [0xA, 0xC, 0xD] := by
  simp only [rowsMiddle, selects_iff_of_mask_F000, selects_iff_of_mask_F00F, BitVec.ofNat_eq_ofNat, BitVec.toNat_ofNat,
    Nat.reducePow, Nat.reduceMod, Nat.reduceDiv, List.mem_cons, List.not_mem_nil, or_false, exists_eq_or_imp,
    exists_eq_left, and_true, and_or_left, or_assoc]

theorem selects_rowsHigh_iff (w : Word) : (∃ r ∈ rowsHigh, r.selects w = true) ↔
    (w.toNat / 0x1000 = 0xE ∧ w.toNat % 256 ∈ [0x9E, 0xA1]) ∨
    (w.toNat / 0x1000 = 0xF ∧ w.toNat % 256 ∈ [0x07, 0x0A, 0x15, 0x18, 0x1E, 0x29, 0x33, 0x65]) := by
  simp only [rowsHigh, selects_iff_of_mask_F0FF, BitVec.ofNat_eq_ofNat, BitVec.toNat_ofNat,
    Nat.reducePow, Nat.reduceMod, Nat.reduceDiv, List.mem_cons, List.not_mem_nil, or_false, exists_eq_or_imp,
    exists_eq_left, and_or_left, or_assoc]

/-- The seven regions are what the three parts of the table leave of the 65536 words. -/
theorem no_row_iff_illegalWord (w : Word) :
    (¬ ∃ r ∈ opcodeRows, r.selects w = true) ↔ Machine.IllegalWord w := by
  have hw : w.toNat < 65536 := w.isLt
  have split : (∃ r ∈ opcodeRows, r.selects w = true) ↔ ((∃ r ∈ rowsLow, r.selects w = true) ∨
      ∃ r ∈ rowsMiddle, r.selects w = true) ∨ ∃ r ∈ rowsHigh, r.selects w = true := by
    simp only [opcodeRows, List.mem_append, or_and_right, exists_or]
  rw [split, selects_rowsLow_iff, selects_rowsMiddle_iff, selects_rowsHigh_iff, Machine.IllegalWord]
  have hq : w.toNat / 0x1000 < 16 := by omega
  generalize w.toNat / 0x1000 = q at hq ⊢
  interval_cases q <;> simp

theorem decodeWord_of_illegalWord {w : Word} (h : Machine.IllegalWord w) : decodeWord w = .error (illegalRegion w) :=
  decodeWord_of_no_row ((no_row_iff_illegalWord w).2 h)

end Sys2Proof.Laws
end

section
/-! The statements about the encoding (30_encoding.md). -/

namespace Sys2Proof.Laws

/-- Settles O2: the word of every instruction selects the row that builds it, and no other. -/
theorem decodeOfEncodeIsTheInstruction : Obligations.DecodeOfEncodeIsTheInstruction :=
  fun i rest => ⟨decodeWord_encode i, decode_encodeBytes i rest⟩

/-- Settles O3: the row the word selects rebuilds it. -/
theorem encodeOfDecodeIsTheWord : Obligations.EncodeOfDecodeIsTheWord := by
  intro w i h
  obtain ⟨r, hr, hw, rfl⟩ := decodeWord_eq_ok_iff.1 h
  exact opcodeRows_rebuild r hr w hw

/-- Settles O4: a word is refused when it selects no row, and the seven regions are the words that select none. -/
theorem refusedWordsAreTheSevenRegions : Obligations.RefusedWordsAreTheSevenRegions :=
  fun w => decodeWord_refuses_iff.trans (no_row_iff_illegalWord w)

/-- Settles O5: the two rows are one. -/
theorem noWordSelectsTwoRows : Obligations.NoWordSelectsTwoRows := by
  intro w r hr q hq hrw hqw
  obtain rfl := selected_row_unique hr hq hrw hqw
  exact ⟨rfl, rfl⟩

/-- Settles O1: seven words of instructions, and two of illegal regions with the name of their group. -/
theorem writtenOutWordsDecode : Obligations.WrittenOutWordsDecode := by
  refine ⟨decodeWord_of_encode rfl, decodeWord_of_encode rfl, decodeWord_of_encode rfl, decodeWord_of_encode rfl,
    decodeWord_of_encode rfl, decodeWord_of_encode rfl, decodeWord_of_encode rfl,
    decodeWord_of_illegalWord ?group9, decodeWord_of_illegalWord ?group0⟩
  case group9 => exact .inr (.inr (.inr (.inl (by decide))))
  case group0 => exact .inl (by decide)

end Sys2Proof.Laws
end

section
/-! SUPPORT. What each event does to the run state (40_engine_cycle.md R91), and the delivery of the next event of the
schedule (10_state.md R27). -/

namespace Sys2Proof.Machine

/-! ## The next event -/

theorem step_of_named_event {s : State} {e : Event} {rest : List Event} (h : s.schedule = e :: rest) :
    step s = deliver e { s with schedule := rest } := by
  simp [step, State.nextEvent, State.takeEvent, h]

theorem step_of_empty_schedule {s : State} (h : s.schedule = []) :
    step s = cycle (Config.randomByte s.draws) { s with draws := s.draws + 1 } := by
  simp [step, State.nextEvent, State.takeEvent, h, deliver]

/-! ## The decoded instruction -/

theorem decodeWord_of_decode {hi lo : Byte} {i : Instr} {rest : List Byte} (h : decode (hi :: lo :: rest) = .ok (i, rest)) :
    decodeWord (wordOfBytes hi lo) = .ok i := by
  rw [decode_cons] at h
  cases hd : decodeWord (wordOfBytes hi lo) with
  | error e => rw [hd] at h; cases h
  | ok j => rw [hd] at h; cases h; rfl

/-- In Running a cycle is the instruction its word decodes to, and the count of the cycle (R81). -/
theorem cycle_of_decoded {s : State} {w : Word} {i : Instr} (r : Byte) (hr : s.run = .running) (hw : s.fetch = .ok w)
    (hd : decodeWord w = .ok i) : cycle r s = finishCycle (exec i { s with random := r }) := by
  have hf : ({ s with random := r } : State).fetch = .ok w := (fetch_congr rfl rfl rfl).trans hw
  rw [cycle_of_running hr, runCycle_of_decoded hf hd]

/-! ## Ticks -/

theorem toNat_countDown (t : Byte) : (countDown t).toNat = t.toNat - 1 := by
  unfold countDown
  split <;> bv_omega

/-- A tick steps both timers in every run state but Halted (R186). -/
theorem tick_of_not_halted {s : State} (h : s.isHalted = false) :
    s.tick = { s with DT := countDown s.DT, ST := countDown s.ST } := by
  unfold State.tick
  split
  · next f hf => simp [State.isHalted, hf] at h
  · rfl

@[simp] theorem tick_run (s : State) : s.tick.run = s.run := by unfold State.tick; split <;> rfl

/-! ## Key events -/

/-- A press ends a key wait (R188). -/
theorem keyEvent_press_of_waiting {s : State} {w : Reg} (id : KeyId) (h : s.run = .waitingForKey w) :
    s.keyEvent id true = (s.setKey id true).endWait w id := by simp [State.keyEvent, h]

/-- Everything a key event can do to the run state. -/
theorem keyEvent_run_cases (s : State) (id : KeyId) (pressed : Bool) :
    (s.keyEvent id pressed).run = s.run ∨
    (pressed = true ∧ (∃ w, s.run = .waitingForKey w) ∧ (s.keyEvent id pressed).run = .running) := by
  unfold State.keyEvent
  split
  · next w hs => exact .inr ⟨rfl, ⟨w, hs⟩, rfl⟩
  · exact .inl rfl

/-! ## Construct -/

/-- An accepted `Construct` leads to Running (R240). -/
theorem constructEvent_run {rom : List Byte} {s t : State} (h : constructEvent rom s = .next t) : t.run = .running := by
  rcases le_or_gt rom.length romMax with hl | hl
  · exact Host.Outcome.next.inj ((constructEvent_of_fits s hl).symm.trans h) ▸ rfl
  · rw [constructEvent_of_overlong s hl] at h
    cases h

/-! ## Cycles -/

/-- A fetched FX0A: what a cycle that enters a key wait ran (R185). -/
def State.FetchesKeyWait (s : State) (x : Reg) : Prop := ∃ w, s.fetch = .ok w ∧ decodeWord w = .ok (.ldVxK x)

/-- Everything a cycle can do to the run state. -/
theorem cycle_run_cases {r : Byte} {s t : State} (h : cycle r s = .next t) :
    t.run = s.run ∨
    (s.run = .running ∧ ((∃ f, t.run = .halted f) ∨ ∃ x, t.run = .waitingForKey x ∧ s.FetchesKeyWait x)) := by
  cases hr : s.run with
  | waitingForKey w => exact .inl (Host.Outcome.next.inj ((cycle_of_waiting hr).symm.trans h) ▸ hr)
  | halted f => exact .inl (Host.Outcome.next.inj ((cycle_of_halted hr).symm.trans h) ▸ hr)
  | running =>
    rcases cycle_running_cases r hr with ⟨k, e⟩ | ⟨w, i, u, hw, hd, -, c, e⟩
    · obtain rfl := Host.Outcome.next.inj (e.symm.trans h)
      exact .inr ⟨rfl, .inl ⟨_, rfl⟩⟩
    · obtain rfl := Host.Outcome.next.inj (e.symm.trans h)
      rcases c.run with hu | ⟨x, rfl, hu⟩
      · exact .inl (hu.trans hr)
      · exact .inr ⟨rfl, .inr ⟨x, hu, w, hw, hd⟩⟩

/-- Everything an event can do to the run state: the rows of R91. -/
theorem deliver_run_cases {e : Event} {s t : State} (h : deliver e s = .next t) :
    t.run = s.run ∨
    ((∃ rom, e = .construct rom) ∧ t.run = .running) ∨
    ((∃ id, e = .keyEvent id true) ∧ (∃ w, s.run = .waitingForKey w) ∧ t.run = .running) ∨
    ((∃ r, e = .cycle r) ∧ s.run = .running ∧
      ((∃ f, t.run = .halted f) ∨ ∃ x, t.run = .waitingForKey x ∧ s.FetchesKeyWait x)) := by
  cases e with
  | cycle r => exact (cycle_run_cases h).imp_right fun left => .inr (.inr ⟨⟨r, rfl⟩, left⟩)
  | tick => exact .inl (Host.Outcome.next.inj h ▸ tick_run s)
  | keyEvent id pressed =>
    obtain rfl := Host.Outcome.next.inj h
    exact (keyEvent_run_cases s id pressed).imp_right fun ⟨hp, ended⟩ => .inr (.inl ⟨⟨id, hp ▸ rfl⟩, ended⟩)
  | frameAck => exact .inl (Host.Outcome.next.inj h ▸ rfl)
  | construct rom => exact .inr (.inl ⟨⟨rom, rfl⟩, constructEvent_run h⟩)

/-! ## The random byte -/

/-- No check of an instruction looks at the random byte. -/
theorem raisedFault_withRandom (i : Instr) (s : State) (r : Byte) :
    raisedFault i { s with random := r } = raisedFault i s := by cases i <;> rfl

/-- No write of an instruction other than CXNN looks at the random byte (R93). -/
theorem completion_withRandom {i : Instr} (s : State) (r : Byte) (h : ∀ x nn, i ≠ .rnd x nn) :
    completion i { s with random := r } = { completion i s with random := r } := by
  cases i with
  | rnd x nn => exact absurd rfl (h x nn)
  | _ => rfl

end Sys2Proof.Machine
end

section
/-! The statements about the engine cycle (40_engine_cycle.md). -/

namespace Sys2Proof.Machine

/-- Settles O9: fault entry writes `run` alone, and a completed instruction leaves `cycles` to the count. -/
theorem runningCycleCompletesOrChangesNothing : Obligations.RunningCycleCompletesOrChangesNothing := by
  intro r s hr
  rcases cycle_running_cases r hr with ⟨k, e⟩ | ⟨w, i, t, -, -, -, c, e⟩
  · exact ⟨_, e, .inl ⟨k, rfl⟩⟩
  · have notHalted : t.isHalted = false := (countCycle_of_completed (s := { s with random := r }) hr c).2
    exact ⟨_, e, .inr ⟨notHalted, congrArg (· + 1) c.cycles⟩⟩

/-- Settles O13: `run` stays, or the event is on one of the rows of the table that move it. -/
theorem runStateFollowsTheTransitionTable : Obligations.RunStateFollowsTheTransitionTable := by
  intro e s t h
  have byConstruct : ∀ rom, e = .construct rom → t.run = .running := fun rom he => constructEvent_run (he ▸ h)
  have byPress : ∀ w id, s.run = .waitingForKey w → e = .keyEvent id true → t.run = .running := by
    rintro w id hs rfl
    obtain rfl := Host.Outcome.next.inj h
    exact congrArg State.run (keyEvent_press_of_waiting id hs)
  rcases deliver_run_cases h with same | ⟨construct, ht⟩ | ⟨press, ⟨w, hs⟩, ht⟩ | ⟨⟨r, rfl⟩, hs, moved⟩
  · exact ⟨fun f hf => .inl (same.trans hf), fun w hw => .inl (same.trans hw), fun hr => .inl (same.trans hr),
      byConstruct, byPress, fun x hx => .inl (same.symm.trans hx)⟩
  · exact ⟨fun _ _ => .inr construct, fun _ _ => .inr (.inr construct), fun _ => .inl ht, byConstruct, byPress,
      by simp [ht]⟩
  · exact ⟨by simp [hs], fun _ _ => .inr (.inl press), fun _ => .inl ht, byConstruct, byPress, by simp [ht]⟩
  · refine ⟨by simp [hs], by simp [hs], fun _ => .inr ⟨r, rfl⟩, byConstruct, byPress, fun x hx => .inr ?_⟩
    rcases moved with ⟨f, ht⟩ | ⟨y, ht, w, hw, hd⟩
    · cases ht.symm.trans hx
    · obtain rfl : y = x := RunState.waitingForKey.inj (ht.symm.trans hx)
      exact ⟨r, w, rfl, hs, hw, hd⟩

/-- Settles O27: the call that does not overflow leaves `pc + 2` on top of the caller's stack, and RET pops it. -/
theorem retComesBackBehindTheCall : Obligations.RetComesBackBehindTheCall := by
  intro s t u nnn hcall hroom hu
  rcases exec_call_cases nnn s with ⟨full, -⟩ | ⟨-, e⟩
  · exact absurd full hroom
  · obtain rfl := Host.Outcome.next.inj (e.symm.trans hcall)
    rcases exec_ret_cases u with ⟨empty, -⟩ | ⟨a, rest, pushed, hret⟩
    · cases hu.symm.trans empty
    · obtain ⟨ha, hrest⟩ := List.cons.inj (pushed.symm.trans hu)
      exact ⟨_, hret, ha, hrest⟩

/-- Settles O45: the check raises the same fault, and the write does not look at the byte unless it is that of CXNN. -/
theorem onlyRndSeesTheRandomByte : Obligations.OnlyRndSeesTheRandomByte := by
  intro i s t r hi h
  have sameFault := raisedFault_withRandom i s r
  rcases exec_next_cases h with ⟨k, hf, rfl⟩ | ⟨hf, rfl⟩
  · exact exec_of_raisedFault (sameFault.trans hf)
  · rw [← completion_withRandom s r hi]
    exact exec_of_no_fault (sameFault.trans hf)

/-- Settles O6: the two bytes are the fetched word, and a step is the cycle of the event it takes. -/
theorem stepRunsTheDecodedInstruction : Obligations.StepRunsTheDecodedInstruction := by
  intro s i hi lo hr hhi hlo hdec
  have hw : s.fetch = .ok (wordOfBytes hi lo) := fetch_of_bytes hhi hlo
  have hd := decodeWord_of_decode hdec
  refine ⟨fun r => cycle_of_decoded r hr hw hd, fun r rest named => ?named, fun empty => ?free⟩
  case named =>
    rw [step_of_named_event named]
    exact cycle_of_decoded (s := { s with schedule := rest }) r hr hw hd
  case free =>
    rw [step_of_empty_schedule empty]
    exact cycle_of_decoded (s := { s with draws := s.draws + 1 }) _ hr hw hd

/-- Settles O8: a cycle looks at `run` first, and a tick stops for Halted only. -/
theorem cyclesWhileNotRunningDoNothing : Obligations.CyclesWhileNotRunningDoNothing := by
  refine ⟨fun r s w h => cycle_of_waiting h, fun r s f h => cycle_of_halted h, fun s w h => ⟨s.tick, rfl, ?_⟩⟩
  have notHalted : s.isHalted = false := by simp [State.isHalted, h]
  rw [tick_of_not_halted notHalted]
  exact ⟨toNat_countDown s.DT, toNat_countDown s.ST⟩

end Sys2Proof.Machine
end

section
/-! SUPPORT. The writes of the control flow instructions (41_control_flow.md): `pc` alone, and the pop of RET. -/

namespace Sys2Proof.Machine

/-! ## A write of `pc` -/

theorem setPc_onlyPc (s : State) (target : Word) : OnlyPc s (s.setPc target) target := ⟨rfl, fun _ => rfl⟩

/-- A skip whose condition is met when two bytes are equal (R103): all 8 bits are compared, as unsigned numbers. -/
theorem skipIf_beq_onlyPc (s : State) (a b : Byte) :
    OnlyPc s (s.skipIf (a == b)) (if a.toNat = b.toNat then s.pc + 4 else s.pc + 2) := by
  simp only [skipIf_eq, beq_iff_eq, BitVec.toNat_inj]
  exact setPc_onlyPc s _

/-- A skip whose condition is met when two bytes differ (R104, R105). -/
theorem skipIf_bne_onlyPc (s : State) (a b : Byte) :
    OnlyPc s (s.skipIf (a != b)) (if a.toNat = b.toNat then s.pc + 2 else s.pc + 4) := by
  simp only [skipIf_eq, bne_iff_ne, ne_eq, ite_not, BitVec.toNat_inj]
  exact setPc_onlyPc s _

/-! ## The pop of RET -/

/-- On a non-empty stack RET takes the last entry pushed into `pc` (R100). -/
theorem exec_ret_of_pushed {s : State} {a : Word} {rest : List Word} (h : s.stack = a :: rest) :
    exec .ret s = .next { s with stack := rest, pc := a } := by
  have noFault : raisedFault .ret s = none := if_neg (by simp [h])
  simp [exec_of_no_fault noFault, completion, h]

end Sys2Proof.Machine
end

section
/-! The statements about control flow (41_control_flow.md). -/

namespace Sys2Proof.Machine

/-- Settles O24: the last entry moves from the stack to `pc`, and only the next fetch checks it. -/
theorem retPopsThePc : Obligations.RetPopsThePc := by
  refine ⟨fun s a rest pushed => ?pops, fun s empty => ?underflows⟩
  case pops =>
    have oneLess : rest.length + 1 = s.sp := by rw [State.sp, pushed, List.length_cons]
    exact ⟨_, exec_ret_of_pushed pushed, rfl, oneLess, fun _ => rfl, fun past => fetch_past_end past⟩
  case underflows => exact ⟨_, exec_of_raisedFault (if_pos empty), takeFault_faulted s _⟩

/-- Settles O25: the address is written as it is, and only the next fetch checks it. -/
theorem jpSetsThePc : Obligations.JpSetsThePc := by
  intro s nnn
  have hpc : (s.setPc (addrOperand nnn)).pc.toNat = nnn.toNat := toNat_addrOperand nnn
  exact ⟨_, rfl, hpc, setPc_onlyPc s _, fun past => fetch_past_end (hpc ▸ past)⟩

/-- Settles O26: the depth is the only check of CALL, and its fault is raised before the push. -/
theorem callPushesTheReturnAddress : Obligations.CallPushesTheReturnAddress := by
  refine ⟨fun s nnn room => ?pushes, fun s nnn full => ?overflows⟩
  case pushes => exact ⟨_, exec_of_no_fault (if_neg room), rfl, toNat_addrOperand nnn, rfl, fun _ => rfl⟩
  case overflows => exact ⟨_, exec_of_raisedFault (if_pos full), takeFault_faulted s _⟩

/-- Settles O28: 3XNN skips on equal bytes, 4XNN and 9XY0 on different ones. -/
theorem compareSkipsMoveThePcOnly : Obligations.CompareSkipsMoveThePcOnly :=
  ⟨fun s x nn => ⟨_, rfl, skipIf_beq_onlyPc s (s.readV x) nn⟩,
   fun s x nn => ⟨_, rfl, skipIf_bne_onlyPc s (s.readV x) nn⟩,
   fun s x y => ⟨_, rfl, skipIf_bne_onlyPc s (s.readV x) (s.readV y)⟩⟩

end Sys2Proof.Machine
end

section
/-! SUPPORT. The writes of the register and arithmetic instructions (42_register_alu.md): one register, or the flag and
then the result. -/

namespace Sys2Proof.Machine

/-! ## A write of one register -/

theorem writeV_advance_onlyRegister (s : State) (x : Reg) (v : Byte) : OnlyRegister s (s.writeV x v).advance x v :=
  ⟨rfl, readV_writeV_same s x v, fun _ h => readV_writeV_ne s v h, fun _ => rfl⟩

/-- The frame of a write of one register, for a statement that gives the value apart. -/
theorem writeV_advance_onlyRegister_readV (s : State) (x : Reg) (v : Byte) :
    OnlyRegister s (s.writeV x v).advance x ((s.writeV x v).advance.readV x) := by
  rw [readV_advance, readV_writeV_same]
  exact writeV_advance_onlyRegister s x v

/-! ## A write of the flag and the result -/

/-- From `s` to `t` the flag is written to VF and the result to `V[x]`, the result last, so that it stays with `x = 15`
(R89; D9), and nothing else changes but `pc`: the frame of `OnlyRegister` for 8XY4 and 8XY5. -/
def OnlyFlagAndRegister (s t : State) (x : Reg) (flag : Bool) (v : Byte) : Prop :=
  t = { s with V := t.V, pc := s.pc + 2 } ∧ t.readV x = v ∧ (x ≠ 15 → t.readV 15 = flagByte flag) ∧
  (∀ k, k ≠ x → k ≠ 15 → t.readV k = s.readV k) ∧ SameMemory s t

theorem writeFlagThenResult_advance_onlyFlagAndRegister (s : State) (x : Reg) (flag : Bool) (v : Byte) :
    OnlyFlagAndRegister s (s.writeFlagThenResult x flag v).advance x flag v := by
  have result : (s.writeFlagThenResult x flag v).readV x = v := readV_writeV_same _ x v
  have flagStays (hx : x ≠ regVF) : (s.writeFlagThenResult x flag v).readV regVF = flagByte flag :=
    (readV_writeV_ne _ v hx.symm).trans (readV_writeV_same s regVF _)
  exact ⟨rfl, result, flagStays, fun _ hx hf => readV_writeFlagThenResult s flag v hx hf, fun _ => rfl⟩

theorem toNat_flagByte_carryOut (a b : Byte) :
    (flagByte (carryOut a b)).toNat = if a.toNat + b.toNat > 255 then 1 else 0 := by simp [carryOut]

theorem toNat_flagByte_notBorrow (a b : Byte) :
    (flagByte (notBorrow a b)).toNat = if a.toNat < b.toNat then 0 else 1 := by simp [notBorrow, apply_ite]

end Sys2Proof.Machine
end

section
/-! The statements about registers and arithmetic (42_register_alu.md). -/

namespace Sys2Proof.Machine

/-- Settles O30: VF is written with the carry and then `V[X]` with the sum, both of the old operands. -/
theorem addWritesSumAndCarry : Obligations.AddWritesSumAndCarry := by
  intro s x y
  obtain ⟨frame, result, flag, others, memory⟩ := writeFlagThenResult_advance_onlyFlagAndRegister s x
    (carryOut (s.readV x) (s.readV y)) (addResult (s.readV x) (s.readV y))
  refine ⟨_, rfl, frame, ?sum, fun hx => ?carry, others, memory⟩
  case sum => rw [result, toNat_addResult]
  case carry => rw [flag hx, toNat_flagByte_carryOut]

/-- Settles O31: VF is written with the not-borrow and then `V[X]` with the difference, both of the old operands. -/
theorem subWritesDifferenceAndNotBorrow : Obligations.SubWritesDifferenceAndNotBorrow := by
  intro s x y
  obtain ⟨frame, result, flag, others, memory⟩ := writeFlagThenResult_advance_onlyFlagAndRegister s x
    (notBorrow (s.readV x) (s.readV y)) (subResult (s.readV x) (s.readV y))
  refine ⟨_, rfl, frame, ?difference, fun hx => ?notBorrow, others, memory⟩
  case difference => rw [result, toNat_subResult]
  case notBorrow => rw [flag hx, toNat_flagByte_notBorrow]

/-- Settles O29: each of the four is one write of `V[X]`; VF is a register like every other. -/
theorem plainRegisterInstructionsWriteOneRegister : Obligations.PlainRegisterInstructionsWriteOneRegister := by
  refine ⟨fun s x nn => ⟨_, rfl, writeV_advance_onlyRegister s x nn⟩,
    fun s x nn => ⟨_, rfl, writeV_advance_onlyRegister_readV s x _, ?sum⟩,
    fun s x y => ⟨_, rfl, writeV_advance_onlyRegister s x (s.readV y)⟩,
    fun s x y => ⟨_, rfl, writeV_advance_onlyRegister_readV s x _, fun b => ?and⟩⟩
  case sum => rw [readV_advance, readV_writeV_same, toNat_addResult]
  case and => rw [readV_advance, readV_writeV_same, BitVec.getLsbD_and]

/-- Settles O32: the byte written is the random byte masked by `NN`. -/
theorem rndMasksTheRandomByte : Obligations.RndMasksTheRandomByte := by
  intro s r x nn
  refine ⟨_, rfl, writeV_advance_onlyRegister_readV _ x _, fun b => ?bits, ?bound⟩
  case bits => rw [readV_advance, readV_writeV_same, BitVec.getLsbD_and]
  case bound =>
    rw [readV_advance, readV_writeV_same, BitVec.toNat_and]
    exact Nat.and_le_right

end Sys2Proof.Machine
end

section
/-! SUPPORT. What the index register instructions write (43_index_memory.md): the bytes read after the store of FX33, and
the registers after the load of FX65. -/

namespace Sys2Proof.Machine

/-! ## The bytes after FX33 (R143) -/

section
variable {s : State} (x : Reg)

/-- A data address of the store reads as its digit. -/
theorem memRead_completion_ldB_digit {k : Nat} {digit : Byte} (hk : (bcdDigits (s.readV x))[k]? = some digit)
    (ha : s.dataAddr k ≤ lastAddr) : (completion (.ldB x) s).memRead (s.dataAddr k) = .ok digit := by
  have covered : s.I.toNat ≤ s.dataAddr k := Nat.le_add_right _ _
  have offset : s.dataAddr k - s.I.toNat = k := Nat.add_sub_cancel_left _ _
  rw [memRead_completion_ldB x (memRead_inRange ha), if_pos covered, offset, hk, Option.getD_some]

/-- An address before or behind the store reads as before, inside memory or not. -/
theorem memRead_completion_ldB_outside {a : Nat} (h : a < s.I.toNat ∨ s.I.toNat + 3 ≤ a) :
    (completion (.ldB x) s).memRead a = s.memRead a := by
  rcases le_or_gt a lastAddr with ha | ha
  · rw [memRead_completion_ldB x (memRead_inRange ha), memRead_inRange ha]
    split
    · have behind : (bcdDigits (s.readV x)).length ≤ a - s.I.toNat := by
        show 3 ≤ a - s.I.toNat
        omega
      rw [List.getElem?_eq_none behind, Option.getD_none]
    · rfl
  · rw [memRead_outOfRange ha, memRead_outOfRange ha]

end

/-! ## The registers after FX65 (R144) -/

/-- A register up to `V[X]` is the byte at its data address. -/
theorem readV_completion_ldVxMem (s : State) {x k : Reg} (h : k ≤ x) :
    (completion (.ldVxMem x) s).readV k = Memory.get s.cfg.font s.mem (s.I.toNat + k.val) := by
  have hk : k.val < x.val + 1 := Nat.lt_succ_of_le h
  show (loadRegs s.V 0 _)[k] = _
  rw [loadRegs_getElem, if_pos (Nat.zero_le _), Nat.sub_zero, List.getElem?_map, List.getElem?_range' hk, Nat.one_mul]
  rfl

end Sys2Proof.Machine
end

section
/-! The statements about the index register and memory (43_index_memory.md). -/

namespace Sys2Proof.Machine

/-- Settles O34: the bound on the sum is the only check, and under it the sum is written as it is. -/
theorem addIIsBoundedByMemory : Obligations.AddIIsBoundedByMemory := by
  refine fun s x => ⟨fun fits => ?adds, fun past => ?faults⟩
  case adds => exact ⟨_, exec_of_no_fault (if_neg (Nat.not_lt.2 fits)), toNat_ofNat_index fits, rfl, fun _ => rfl⟩
  case faults => exact ⟨_, exec_of_raisedFault (if_pos past), takeFault_faulted s _⟩

/-- Settles O35: each data address reads as its digit, and no other address lies in the store. -/
theorem ldBStoresTheDecimalDigits : Obligations.LdBStoresTheDecimalDigits := by
  refine fun s x => ⟨fun fits => ?stores, fun past => ?faults⟩
  case stores =>
    have inRange {k : Nat} (hk : k ≤ 2) : s.dataAddr k ≤ lastAddr := (Nat.add_le_add_left hk _).trans fits
    refine ⟨completion (.ldB x) s, exec_of_no_fault (raisedFault_ldB_inRange x fits),
      ⟨_, _, _, memRead_completion_ldB_digit x rfl (inRange (by decide)),
        memRead_completion_ldB_digit x rfl (inRange (by decide)),
        memRead_completion_ldB_digit x rfl (inRange (by decide)), ?hundreds, ?tens, ?ones⟩,
      fun a h0 h1 h2 => memRead_completion_ldB_outside x ?outside, rfl⟩
    case hundreds | tens | ones => rw [BitVec.toNat_ofNat]; omega
    case outside => simp only [State.dataAddr] at h0 h1 h2; omega
  case faults => exact ⟨_, exec_of_raisedFault (if_pos past), takeFault_faulted s _⟩

/-- Settles O36: the bound on the new `I` covers the reads, and the load reaches `V[0]` to `V[X]` only. -/
theorem ldVxMemLoadsUpToVx : Obligations.LdVxMemLoadsUpToVx := by
  refine fun s x => ⟨fun fits => ?loads, fun past => ?faults⟩
  case loads =>
    refine ⟨completion (.ldVxMem x) s, exec_of_no_fault (if_neg (Nat.not_lt.2 fits)), fun k hk => ?loaded,
      fun k hk => readV_completion _ s (Fin.not_le.2 hk), toNat_ofNat_index fits, rfl, fun _ => rfl⟩
    case loaded =>
      have inRange : s.I.toNat + k.val ≤ lastAddr :=
        (Nat.add_le_add_left hk _).trans ((Nat.le_succ _).trans fits)
      rw [readV_completion_ldVxMem s hk, memRead_inRange inRange]
  case faults => exact ⟨_, exec_of_raisedFault (if_pos past), takeFault_faulted s _⟩

/-- Settles O33: the address is written as it is, and five times a byte does not wrap. -/
theorem indexLoadsWriteI : Obligations.IndexLoadsWriteI := by
  refine ⟨fun s nnn => ⟨_, rfl, toNat_addrOperand nnn, ?address, rfl, fun _ => rfl⟩,
    fun s x => ⟨_, rfl, ?product, ?bound, rfl, fun _ => rfl⟩⟩
  case address => exact (toNat_addrOperand nnn).trans_le (by omega)
  case product => exact toNat_ofNat_index (by omega)
  case bound => exact (toNat_ofNat_index (by omega)).trans_le (by omega)

end Sys2Proof.Machine
end

section
/-! SUPPORT. A draw is a fold of `plot` over the list of the set sprite pixels (44_display.md R161, R162). No pixel
stands twice in the list, because a sprite is smaller than the framebuffer it wraps around: so the draw is the XOR of
the framebuffer with the list, and a collision is a listed pixel that was set before (R163). -/

namespace Sys2Proof.Machine

/-! ## Plotting a list of pixels -/

/-- The pixels of a list plotted in its order. -/
def plotAll (pixels : List (Fin 64 × Fin 32)) (d : Drawing) : Drawing := pixels.foldl (fun d p => plot p.1 p.2 d) d

theorem plotAll_cons (p : Fin 64 × Fin 32) (ps : List (Fin 64 × Fin 32)) (d : Drawing) :
    plotAll (p :: ps) d = plotAll ps (plot p.1 p.2 d) := rfl

theorem plotAll_append (ps qs : List (Fin 64 × Fin 32)) (d : Drawing) :
    plotAll (ps ++ qs) d = plotAll qs (plotAll ps d) := List.foldl_append

/-- Without repetition each listed pixel is turned over once. -/
theorem pixel_plotAll {pixels : List (Fin 64 × Fin 32)} (once : pixels.Nodup) (d : Drawing) (px : Fin 64) (py : Fin 32) :
    pixel (plotAll pixels d).fb px py = (pixel d.fb px py ^^ decide ((px, py) ∈ pixels)) := by
  induction pixels generalizing d with
  | nil => simp [plotAll]
  | cons p rest ih =>
    obtain ⟨fresh, once⟩ := List.nodup_cons.1 once
    rw [plotAll_cons, ih once, plot_fb, pixel_togglePixel]
    by_cases hp : (px, py) = p
    · subst hp; simp [fresh]
    · have elsewhere : ¬ (px = p.1 ∧ py = p.2) := fun h => hp (Prod.ext h.1 h.2)
      simp [hp, elsewhere]

/-- Without repetition the collision test of each listed pixel sees the framebuffer from before all of them. -/
theorem plotAll_collided {pixels : List (Fin 64 × Fin 32)} (once : pixels.Nodup) (d : Drawing) :
    (plotAll pixels d).collided = true ↔ d.collided = true ∨ ∃ p ∈ pixels, pixel d.fb p.1 p.2 = true := by
  induction pixels generalizing d with
  | nil => simp [plotAll]
  | cons p rest ih =>
    obtain ⟨fresh, once⟩ := List.nodup_cons.1 once
    have untouched : ∀ q ∈ rest, pixel (plot p.1 p.2 d).fb q.1 q.2 = pixel d.fb q.1 q.2 := by
      intro q hq
      have elsewhere : ¬ (q.1 = p.1 ∧ q.2 = p.2) := fun h => fresh (Prod.ext h.1 h.2 ▸ hq)
      simp [pixel_togglePixel, elsewhere]
    rw [plotAll_cons, ih once, plot_collided, Bool.or_eq_true, List.exists_mem_cons_iff, or_assoc]
    refine or_congr_right (or_congr_right (exists_congr fun q => and_congr_right fun hq => ?_))
    rw [untouched q hq]

/-! ## The set pixels of a sprite -/

/-- The set pixels of one sprite byte on row `y`, from the left (the inner loop of R161). -/
def rowPixels (x0 : Nat) (y : Fin 32) (b : Byte) : List (Fin 64 × Fin 32) :=
  ((List.range 8).filter (spriteBit b)).map fun col => (drawX x0 col, y)

/-- The set pixels of a sprite from row offset `k` on (the outer loop of R161). -/
def spritePixelsFrom (x0 y0 k : Nat) (bytes : List Byte) : List (Fin 64 × Fin 32) :=
  (bytes.zipIdx k).flatMap fun row => rowPixels x0 (drawY y0 row.2) row.1

theorem drawCols_eq_plotAll (x0 : Nat) (y : Fin 32) (b : Byte) (d : Drawing) :
    drawCols x0 y b 8 d = plotAll (rowPixels x0 y b) d := by
  rw [plotAll, rowPixels, List.foldl_map, List.foldl_filter]
  rfl

theorem drawRows_eq_plotAll (x0 y0 k : Nat) (bytes : List Byte) (d : Drawing) :
    drawRows x0 y0 k bytes d = plotAll (spritePixelsFrom x0 y0 k bytes) d := by
  induction bytes generalizing k d with
  | nil => rfl
  | cons b rest ih =>
    rw [drawRows, ih, drawCols_eq_plotAll, ← plotAll_append]
    rfl

theorem drawX_eq_iff (x0 col : Nat) (px : Fin 64) : drawX x0 col = px ↔ (x0 + col) % 64 = px.val := Fin.ext_iff

theorem drawY_eq_iff (y0 k : Nat) (py : Fin 32) : drawY y0 k = py ↔ (y0 + k) % 32 = py.val := Fin.ext_iff

theorem mem_rowPixels {x0 : Nat} {y : Fin 32} {b : Byte} {p : Fin 64 × Fin 32} :
    p ∈ rowPixels x0 y b ↔ ∃ col < 8, spriteBit b col = true ∧ drawX x0 col = p.1 ∧ y = p.2 := by
  simp [rowPixels, Prod.ext_iff, and_assoc]

/-- The listed pixels are those the sprite covers. -/
theorem mem_spritePixelsFrom_zero {x0 y0 : Nat} {bytes : List Byte} {px : Fin 64} {py : Fin 32} :
    (px, py) ∈ spritePixelsFrom x0 y0 0 bytes ↔ SpriteCovers x0 y0 bytes px py := by
  simp only [spritePixelsFrom, List.mem_flatMap, List.mem_zipIdx_iff_getElem?, mem_rowPixels, drawX_eq_iff, drawY_eq_iff,
    spriteBit, SpriteCovers, Prod.exists]
  constructor
  · rintro ⟨b, k, hb, col, hcol, hbit, hx, hy⟩
    exact ⟨k, col, b, hb, hcol, hbit, hx, hy⟩
  · rintro ⟨k, col, b, hb, hcol, hbit, hx, hy⟩
    exact ⟨b, k, hb, col, hcol, hbit, hx, hy⟩

/-- A row of 8 columns does not meet itself around 64. -/
theorem rowPixels_nodup (x0 : Nat) (y : Fin 32) (b : Byte) : (rowPixels x0 y b).Nodup := by
  refine (List.nodup_range.filter _).map_on fun c hc d hd e => ?_
  have hc : c < 8 := List.mem_range.1 (List.mem_of_mem_filter hc)
  have hd : d < 8 := List.mem_range.1 (List.mem_of_mem_filter hd)
  have wrapped : (x0 + c) % 64 = (x0 + d) % 64 := Fin.ext_iff.1 (Prod.ext_iff.1 e).1
  omega

/-- A sprite of at most 32 rows does not meet itself around 32. -/
theorem spritePixelsFrom_zero_nodup (x0 y0 : Nat) {bytes : List Byte} (h : bytes.length ≤ 32) :
    (spritePixelsFrom x0 y0 0 bytes).Nodup := by
  have rowsApart : bytes.zipIdx.Pairwise fun r q => r.2 ≠ q.2 :=
    List.pairwise_map.1 (List.nodup_zipIdx_map_snd _)
  refine List.nodup_flatMap.2 ⟨fun row _ => rowPixels_nodup x0 _ row.1, rowsApart.imp_of_mem ?_⟩
  intro r q hr hq apart p hpr hpq
  obtain ⟨_, _, _, _, hyr⟩ := mem_rowPixels.1 hpr
  obtain ⟨_, _, _, _, hyq⟩ := mem_rowPixels.1 hpq
  have wrapped : (y0 + r.2) % 32 = (y0 + q.2) % 32 := Fin.ext_iff.1 (hyr.trans hyq.symm)
  have hr : r.2 < bytes.length := List.snd_lt_of_mem_zipIdx hr
  have hq : q.2 < bytes.length := List.snd_lt_of_mem_zipIdx hq
  omega

end Sys2Proof.Machine
end

section
/-! SUPPORT. What DXYN leaves when its range check passes (44_display.md R161 to R164): the framebuffer and VF, in terms
of the pixels its sprite covers. -/

namespace Sys2Proof.Machine

/-- The sprite of a draw: the `n` bytes from `I`. -/
def State.spriteBytes (s : State) (n : Nibble) : List Byte :=
  (List.range' s.I.toNat n.toNat).map (Memory.get s.cfg.font s.mem)

theorem length_spriteBytes (s : State) (n : Nibble) : (s.spriteBytes n).length = n.toNat := by
  simp [State.spriteBytes]

theorem memRead_of_spriteBytes {s : State} {n : Nibble} {k : Nat} {b : Byte}
    (inRange : n = 0 ∨ s.I.toNat + n.toNat - 1 ≤ 0x0FFF) (h : (s.spriteBytes n)[k]? = some b) :
    s.memRead (s.I.toNat + k) = .ok b := by
  have hk : k < n.toNat := length_spriteBytes s n ▸ (List.getElem?_eq_some_iff.1 h).1
  have hb : Memory.get s.cfg.font s.mem (s.I.toNat + k) = b := by
    simpa [State.spriteBytes, List.getElem?_range' hk] using h
  have hn : n ≠ 0 := by rintro rfl; exact absurd hk (Nat.not_lt_zero k)
  have bounded := inRange.resolve_left hn
  rw [memRead_inRange (by simp only [lastAddr]; omega), hb]

theorem raisedFault_drw_inRange {s : State} (x y : Reg) {n : Nibble}
    (h : n = 0 ∨ s.I.toNat + n.toNat - 1 ≤ 0x0FFF) : raisedFault (.drw x y n) s = none := by
  refine if_neg fun ⟨hn, past⟩ => ?_
  rcases h with rfl | h
  · exact hn rfl
  · omega

section
variable (s : State) (x y : Reg) (n : Nibble)

/-- The pixels the sprite of a draw covers, each listed once. -/
def State.drawnPixels : List (Fin 64 × Fin 32) :=
  spritePixelsFrom (s.readV x).toNat (s.readV y).toNat 0 (s.spriteBytes n)

theorem mem_drawnPixels {px : Fin 64} {py : Fin 32} : (px, py) ∈ s.drawnPixels x y n ↔
    SpriteCovers (s.readV x).toNat (s.readV y).toNat (s.spriteBytes n) px py := mem_spritePixelsFrom_zero

theorem drawnPixels_nodup : (s.drawnPixels x y n).Nodup :=
  spritePixelsFrom_zero_nodup _ _ (by rw [length_spriteBytes]; omega)

theorem completion_drw_eq : completion (.drw x y n) s =
    (s.commitDrawing (plotAll (s.drawnPixels x y n) { fb := s.fb, collided := false })).advance :=
  congrArg (fun d => (s.commitDrawing d).advance) (drawRows_eq_plotAll _ _ _ _ _)

/-- DRW is the XOR of the framebuffer with the sprite. -/
theorem pixel_completion_drw (px : Fin 64) (py : Fin 32) : pixel (completion (.drw x y n) s).fb px py =
    (pixel s.fb px py ^^ decide ((px, py) ∈ s.drawnPixels x y n)) := by
  rw [completion_drw_eq]
  exact pixel_plotAll (drawnPixels_nodup s x y n) _ px py

/-- DRW turns over the pixels of the sprite and no other. -/
theorem pixel_completion_drw_ne_iff (px : Fin 64) (py : Fin 32) :
    pixel (completion (.drw x y n) s).fb px py ≠ pixel s.fb px py ↔ (px, py) ∈ s.drawnPixels x y n := by
  rw [pixel_completion_drw]
  cases pixel s.fb px py <;> simp

/-- VF after DRW is a flag: it tells whether a pixel of the sprite was set before. -/
theorem readVF_completion_drw : ∃ collided, (completion (.drw x y n) s).readV 15 = flagByte collided ∧
    (collided = true ↔ ∃ px py, pixel s.fb px py = true ∧ (px, py) ∈ s.drawnPixels x y n) := by
  refine ⟨_, by rw [completion_drw_eq]; exact readV_writeV_same _ regVF _, ?_⟩
  simp [plotAll_collided (drawnPixels_nodup s x y n), and_comm]

end

theorem toNat_flagByte_eq_one_iff (b : Bool) : (flagByte b).toNat = 1 ↔ b = true := by cases b <;> decide

theorem toNat_flagByte_one_or_zero (b : Bool) : (flagByte b).toNat = 1 ∨ (flagByte b).toNat = 0 := by cases b <;> decide

end Sys2Proof.Machine
end

section
/-! The statements about the display (44_display.md). -/

namespace Sys2Proof.Machine

/-- Settles O38: the draw turns over the sprite's pixels, each once, and its range check comes before every write. -/
theorem drwIsThePixelwiseXorOfTheSprite : Obligations.DrwIsThePixelwiseXorOfTheSprite := by
  refine fun s x y n => ⟨fun inRange => ?draws, fun nonempty past => ?faults⟩
  case draws =>
    obtain ⟨collided, flag, collides⟩ := readVF_completion_drw s x y n
    refine ⟨completion (.drw x y n) s, s.spriteBytes n, exec_of_no_fault (raisedFault_drw_inRange x y inRange),
      length_spriteBytes s n, fun k b hb => memRead_of_spriteBytes inRange hb, fun px py => ?xor, ?flag, ?collision, rfl,
      fun k hk => readV_completion _ s hk, rfl, fun _ => rfl⟩
    case xor => rw [pixel_completion_drw_ne_iff, mem_drawnPixels]
    case flag => rw [flag]; exact toNat_flagByte_one_or_zero collided
    case collision => rw [flag, toNat_flagByte_eq_one_iff, collides]; simp only [mem_drawnPixels]
  case faults =>
    have hn : n.toNat ≠ 0 := fun h => nonempty (BitVec.eq_of_toNat_eq h)
    exact ⟨_, exec_of_raisedFault (if_pos ⟨hn, past⟩), takeFault_faulted s _⟩

/-- Settles O39: both draws turn over the same pixels, so the second undoes the first, and a pixel of the sprite that
is set between them is one the first turned on. -/
theorem drawingTwiceRestoresTheFramebuffer : Obligations.DrawingTwiceRestoresTheFramebuffer := by
  intro s t x y n inRange first hx hy
  have ht : t = completion (.drw x y n) s :=
    Host.Outcome.next.inj (first.symm.trans (exec_of_no_fault (raisedFault_drw_inRange x y inRange)))
  have hI : t.I = s.I := ht ▸ rfl
  have samePixels : t.drawnPixels x y n = s.drawnPixels x y n := by
    have sameBytes : t.spriteBytes n = s.spriteBytes n := ht ▸ rfl
    rw [State.drawnPixels, hx, hy, sameBytes, State.drawnPixels]
  obtain ⟨collided, flag, collides⟩ := readVF_completion_drw t x y n
  refine ⟨completion (.drw x y n) t, exec_of_no_fault (raisedFault_drw_inRange x y (hI ▸ inRange)),
    framebuffer_ext fun px py => ?restored, ?collision⟩
  case restored =>
    rw [pixel_completion_drw, samePixels, ht, pixel_completion_drw, Bool.xor_assoc, Bool.xor_self, Bool.xor_false]
  case collision =>
    rw [flag, toNat_flagByte_eq_one_iff, collides, samePixels]
    refine exists_congr fun px => exists_congr fun py => ?_
    rw [← pixel_completion_drw_ne_iff, ← ht]
    cases pixel s.fb px py <;> cases pixel t.fb px py <;> simp

/-- Settles O37: CLS writes the blank framebuffer and `dirty`, whatever the framebuffer was. -/
theorem clsClearsEveryPixel : Obligations.ClsClearsEveryPixel :=
  fun _ => ⟨_, exec_of_no_fault rfl, pixel_blank, rfl, rfl, fun _ => rfl⟩

/-- Settles O18: the event is one write of `dirty`, and no run state is asked. -/
theorem frameAckClearsDirtyOnly : Obligations.FrameAckClearsDirtyOnly := fun _ => rfl

end Sys2Proof.Machine
end

section
/-! SUPPORT. Everything the events and the cycle can do to the key flags and to the timers, and the key skips with a key
id in `V[X]` (45_keypad_timers.md). -/

namespace Sys2Proof.Machine

/-! ## Key flags (R187, R188) -/

theorem keyDown_setKey_same (s : State) (id : KeyId) (pressed : Bool) : (s.setKey id pressed).keyDown id = pressed :=
  Vector.getElem_set_self id.isLt

theorem keyDown_setKey_ne (s : State) {id k : KeyId} (pressed : Bool) (h : k ≠ id) :
    (s.setKey id pressed).keyDown k = s.keyDown k :=
  Vector.getElem_set_ne id.isLt k.isLt (Fin.val_ne_of_ne h.symm)

/-- Without a wait, or on a release, a key event writes its flag and nothing else. -/
theorem keyEvent_of_no_wait_or_release {s : State} (id : KeyId) {pressed : Bool}
    (h : (∀ w, s.run ≠ .waitingForKey w) ∨ pressed = false) : s.keyEvent id pressed = s.setKey id pressed := by
  unfold State.keyEvent
  split
  · next w waiting => exact absurd h (by simp [waiting])
  · rfl

/-- A press in a wait ends it, and every other key event only writes its flag. -/
theorem keyEvent_cases (s : State) (id : KeyId) (pressed : Bool) :
    (∃ w, s.run = .waitingForKey w ∧ pressed = true ∧ s.keyEvent id pressed = (s.setKey id pressed).endWait w id) ∨
    (((∀ w, s.run ≠ .waitingForKey w) ∨ pressed = false) ∧ s.keyEvent id pressed = s.setKey id pressed) := by
  by_cases h : (∀ w, s.run ≠ .waitingForKey w) ∨ pressed = false
  · exact .inr ⟨h, keyEvent_of_no_wait_or_release id h⟩
  · obtain ⟨⟨w, waiting⟩, rfl⟩ : (∃ w, s.run = .waitingForKey w) ∧ pressed = true := by simpa using h
    exact .inl ⟨w, waiting, rfl, keyEvent_press_of_waiting id waiting⟩

/-! ## Key skips (R180, R181) -/

theorem keyOperand_of_key {s : State} {x : Reg} {k : KeyId} (h : (s.readV x).toNat = k.val) :
    s.keyOperand x = .ok k := by
  rcases keyOperand_cases s x with ⟨past, -⟩ | ⟨j, hj, e⟩
  · omega
  · rw [e, Fin.ext (hj.symm.trans h)]

theorem exec_skp_of_key {s : State} {x : Reg} {k : KeyId} (h : (s.readV x).toNat = k.val) :
    exec (.skp x) s = .next (s.skipIf (s.keyDown k)) := by
  rw [exec, execSkp, keyOperand_of_key h]; rfl

theorem exec_sknp_of_key {s : State} {x : Reg} {k : KeyId} (h : (s.readV x).toNat = k.val) :
    exec (.sknp x) s = .next (s.skipIf (!s.keyDown k)) := by
  rw [exec, execSknp, keyOperand_of_key h]; rfl

theorem skipIf_onlyPc (s : State) (c : Bool) : OnlyPc s (s.skipIf c) (if c = true then s.pc + 4 else s.pc + 2) :=
  skipIf_eq s c ▸ setPc_onlyPc s _

theorem skipIf_not_onlyPc (s : State) (c : Bool) :
    OnlyPc s (s.skipIf (!c)) (if c = true then s.pc + 2 else s.pc + 4) := by
  cases c <;> exact setPc_onlyPc s _

/-! ## Timers (R183, R184, R186) -/

theorem tick_of_halted {s : State} (h : s.isHalted = true) : s.tick = s := by
  cases hr : s.run with
  | halted f => simp [State.tick, hr]
  | running | waitingForKey => simp [State.isHalted, hr] at h

theorem tick_timers_le (s : State) : s.tick.DT.toNat ≤ s.DT.toNat ∧ s.tick.ST.toNat ≤ s.ST.toNat := by
  cases h : s.isHalted with
  | true => rw [tick_of_halted h]; exact ⟨le_rfl, le_rfl⟩
  | false =>
    rw [tick_of_not_halted h, toNat_countDown, toNat_countDown]
    exact ⟨Nat.sub_le _ _, Nat.sub_le _ _⟩

theorem keyEvent_timers (s : State) (id : KeyId) (pressed : Bool) :
    (s.keyEvent id pressed).DT = s.DT ∧ (s.keyEvent id pressed).ST = s.ST := by
  rcases keyEvent_cases s id pressed with ⟨w, -, -, e⟩ | ⟨-, e⟩
  · exact e ▸ ⟨rfl, rfl⟩
  · exact e ▸ ⟨rfl, rfl⟩

/-- An accepted `Construct` stops both timers (R242). -/
theorem constructEvent_timers {rom : List Byte} {s t : State} (h : constructEvent rom s = .next t) :
    t.DT = 0 ∧ t.ST = 0 := by
  rcases le_or_gt rom.length romMax with hl | hl
  · exact Host.Outcome.next.inj ((constructEvent_of_fits s hl).symm.trans h) ▸ ⟨rfl, rfl⟩
  · rw [constructEvent_of_overlong s hl] at h
    cases h

/-- From `s` to `t` each timer stays, or `i` is the instruction that loads it. -/
def TimersLoadedBy (i : Instr) (s t : State) : Prop :=
  (t.DT = s.DT ∨ ∃ x, i = .ldDTVx x) ∧ (t.ST = s.ST ∨ ∃ x, i = .ldSTVx x)

theorem exec_timersLoadedBy {i : Instr} {s t : State} (h : exec i s = .next t) : TimersLoadedBy i s t := by
  rcases exec_next_cases h with ⟨k, -, rfl⟩ | ⟨-, rfl⟩
  · exact ⟨.inl rfl, .inl rfl⟩
  · exact ⟨completion_DT i s, completion_ST i s⟩

/-- Everything a cycle can do to the timers: the fetched instruction loads one, or both stay. -/
theorem cycle_timers_cases {r : Byte} {s t : State} (h : cycle r s = .next t) :
    (t.DT = s.DT ∧ t.ST = s.ST) ∨
    (s.run = .running ∧ ∃ w i, s.fetch = .ok w ∧ decodeWord w = .ok i ∧ TimersLoadedBy i s t) := by
  cases hr : s.run with
  | waitingForKey w => exact .inl (Host.Outcome.next.inj ((cycle_of_waiting hr).symm.trans h) ▸ ⟨rfl, rfl⟩)
  | halted f => exact .inl (Host.Outcome.next.inj ((cycle_of_halted hr).symm.trans h) ▸ ⟨rfl, rfl⟩)
  | running =>
    rcases cycle_running_cases r hr with ⟨k, e⟩ | ⟨w, i, u, hw, hd, he, -, e⟩
    · exact .inl (Host.Outcome.next.inj (e.symm.trans h) ▸ ⟨rfl, rfl⟩)
    · obtain rfl := Host.Outcome.next.inj (e.symm.trans h)
      have loaded : TimersLoadedBy i { s with random := r } u := exec_timersLoadedBy he
      exact .inr ⟨rfl, w, i, hw, hd, loaded⟩

/-- Everything an event can do to the timers: neither rises, or it is a cycle that loads one. -/
theorem deliver_timers_cases {e : Event} {s t : State} (h : deliver e s = .next t) :
    (t.DT.toNat ≤ s.DT.toNat ∧ t.ST.toNat ≤ s.ST.toNat) ∨
    ((∃ r, e = .cycle r) ∧ s.run = .running ∧
      ∃ w i, s.fetch = .ok w ∧ decodeWord w = .ok i ∧ TimersLoadedBy i s t) := by
  have notRisen (hDT : t.DT = s.DT) (hST : t.ST = s.ST) : t.DT.toNat ≤ s.DT.toNat ∧ t.ST.toNat ≤ s.ST.toNat :=
    ⟨(congrArg BitVec.toNat hDT).le, (congrArg BitVec.toNat hST).le⟩
  cases e with
  | cycle r =>
    exact (cycle_timers_cases h).imp (fun ⟨hDT, hST⟩ => notRisen hDT hST) fun loaded => ⟨⟨r, rfl⟩, loaded⟩
  | tick => exact .inl (Host.Outcome.next.inj h ▸ tick_timers_le s)
  | keyEvent id pressed =>
    obtain rfl := Host.Outcome.next.inj h
    obtain ⟨hDT, hST⟩ := keyEvent_timers s id pressed
    exact .inl (notRisen hDT hST)
  | frameAck => exact .inl (Host.Outcome.next.inj h ▸ ⟨le_rfl, le_rfl⟩)
  | construct rom =>
    obtain ⟨hDT, hST⟩ := constructEvent_timers h
    rw [hDT, hST]
    exact .inl ⟨Nat.zero_le _, Nat.zero_le _⟩

end Sys2Proof.Machine
end

section
/-! The statements about the keypad and the timers (45_keypad_timers.md). -/

namespace Sys2Proof.Machine

/-- Settles O16: a tick does nothing in Halted and steps both timers in the other run states. -/
theorem tickCountsTimersDown : Obligations.TickCountsTimersDown := by
  refine fun s => ⟨s.tick, rfl, fun halted => tick_of_halted halted, fun notHalted => ?_⟩
  rw [tick_of_not_halted notHalted]
  exact ⟨rfl, toNat_countDown s.DT, toNat_countDown s.ST⟩

/-- Settles O17: the flag is written in both cases of a key event, and the latched register in the first only. -/
theorem keyEventWritesItsFlagAndEndsAWait : Obligations.KeyEventWritesItsFlagAndEndsAWait := by
  intro s id pressed
  refine ⟨_, rfl, ?_⟩
  rcases keyEvent_cases s id pressed with ⟨w, waiting, rfl, e⟩ | ⟨noWaitEnds, e⟩
  · rw [e]
    refine ⟨keyDown_setKey_same s id true, fun k hk => keyDown_setKey_ne s true hk, fun v hv _ => ?ended,
      fun noWaitEnds => absurd noWaitEnds (by simp [waiting])⟩
    obtain rfl : w = v := RunState.waitingForKey.inj (waiting.symm.trans hv)
    refine ⟨rfl, ?latched, fun k hk => readV_writeV_ne (s.setKey id true) _ hk⟩
    have written : ((s.setKey id true).endWait w id).readV w = BitVec.ofNat 8 id.val :=
      readV_writeV_same (s.setKey id true) w _
    rw [written, BitVec.toNat_ofNat, Nat.mod_eq_of_lt (by omega)]
  · rw [e]
    refine ⟨keyDown_setKey_same s id pressed, fun k hk => keyDown_setKey_ne s pressed hk, fun w waiting hp => ?_,
      fun _ => rfl⟩
    exact absurd noWaitEnds (by simp [waiting, hp])

/-- Settles O47: taking the event touches neither a timer nor the fetch, and a timer that rises was loaded by the
fetched instruction. -/
theorem timersRiseOnlyByTheirLoads : Obligations.TimersRiseOnlyByTheirLoads := by
  intro s t h
  have takenFetch : s.takeEvent.fetch = s.fetch := fetch_congr (takeEvent_pc s) (takeEvent_mem s) (takeEvent_cfg s)
  have moved {a b : Byte} (risen : a.toNat > b.toNat) : a ≠ b := fun e => risen.ne' (congrArg BitVec.toNat e)
  rcases deliver_timers_cases h with ⟨hDT, hST⟩ | ⟨⟨r, event⟩, running, w, i, hw, hd, hDT, hST⟩
  · simp only [takeEvent_DT, takeEvent_ST] at hDT hST
    exact ⟨fun risen => absurd hDT risen.not_ge, fun risen => absurd hST risen.not_ge⟩
  · simp only [takeEvent_run, takenFetch, takeEvent_DT, takeEvent_ST] at running hw hDT hST
    refine ⟨fun risen => ⟨running, ?DT⟩, fun risen => ⟨running, ?ST⟩⟩
    case DT =>
      obtain ⟨x, rfl⟩ := hDT.resolve_left (moved risen)
      exact ⟨r, w, x, event, hw, hd⟩
    case ST =>
      obtain ⟨x, rfl⟩ := hST.resolve_left (moved risen)
      exact ⟨r, w, x, event, hw, hd⟩

/-- Settles O40: a key id in `V[X]` makes each of the two a skip on its flag, and a value above 15 is the only
fault. -/
theorem keySkipsFollowTheKeyFlag : Obligations.KeySkipsFollowTheKeyFlag := by
  refine fun s x => ⟨fun k hk => ?skips, fun past => ?faults⟩
  case skips =>
    exact ⟨⟨_, exec_skp_of_key hk, skipIf_onlyPc s _⟩, ⟨_, exec_sknp_of_key hk, skipIf_not_onlyPc s _⟩⟩
  case faults =>
    exact ⟨⟨_, exec_of_raisedFault (if_pos past), takeFault_faulted s _⟩,
      ⟨_, exec_of_raisedFault (if_pos past), takeFault_faulted s _⟩⟩

/-- Settles O41: FX07 is one write of `V[X]`, FX15 and FX18 one write of a timer, and `tone` is read off the
new `ST`. -/
theorem timerMovesCopyTheValue : Obligations.TimerMovesCopyTheValue :=
  ⟨fun s x => ⟨_, exec_of_no_fault rfl, writeV_advance_onlyRegister s x s.DT⟩,
   fun _ _ => ⟨_, exec_of_no_fault rfl, rfl, fun _ => rfl⟩,
   fun _ _ => ⟨_, exec_of_no_fault rfl, rfl, decide_eq_true_iff, fun _ => rfl⟩⟩

/-- Settles O42: FX0A has no check, and its two writes are `run` and `pc`, whatever `keys` holds. -/
theorem keyWaitLatchesTheRegister : Obligations.KeyWaitLatchesTheRegister :=
  fun _ _ => ⟨_, exec_of_no_fault rfl, rfl, fun _ => rfl⟩

end Sys2Proof.Machine
end

section
/-! SUPPORT. Taking a fault and what follows it (60_exceptions.md): the two faults of fetch and dispatch, the record of a
halted machine through every event, and that every event but an overlong `Construct` is answered by a next state. -/

namespace Sys2Proof.Machine

/-! ## Faults of fetch and dispatch (R209) -/

section
variable {s : State} (r : Byte) (hr : s.run = .running)
include hr

theorem cycle_of_fetch_fault {k : Fault} (h : s.fetch = .error k) :
    cycle r s = .next (({ s with random := r } : State).takeFault k) := by
  have hf : ({ s with random := r } : State).fetch = .error k := (fetch_congr rfl rfl rfl).trans h
  rw [cycle_of_running hr, runCycle_of_fetch_fault hf]

theorem cycle_of_illegal {w : Word} {e : DecodeError} (hw : s.fetch = .ok w) (hd : decodeWord w = .error e) :
    cycle r s = .next (({ s with random := r } : State).takeFault .unknownOpcode) := by
  have hf : ({ s with random := r } : State).fetch = .ok w := (fetch_congr rfl rfl rfl).trans hw
  rw [cycle_of_running hr, runCycle_of_illegal hf hd]

end

/-! ## The record of a halted machine (R206) -/

/-- Whether the record matches depends on `run`, `pc` and `cycles` alone. -/
theorem State.RecordMatches.congr {s t : State} (h : s.RecordMatches) (hrun : t.run = s.run) (hpc : t.pc = s.pc)
    (hcycles : t.cycles = s.cycles) : t.RecordMatches := by
  intro f hf
  rw [hpc, hcycles]
  exact h f (hrun.symm.trans hf)

theorem recordMatches_of_not_halted {s : State} (h : s.isHalted = false) : s.RecordMatches := by
  intro f hf
  simp [State.isHalted, hf] at h

/-- Fault entry records the `pc` and the cycle count it leaves in place. -/
theorem takeFault_recordMatches (s : State) (k : Fault) : (s.takeFault k).RecordMatches := by
  intro f hf
  obtain rfl : ⟨k, s.pc, s.cycles⟩ = f := RunState.halted.inj hf
  exact ⟨rfl, rfl⟩

theorem cycle_keeps_recordMatches {r : Byte} {s t : State} (h : s.RecordMatches) (hc : cycle r s = .next t) :
    t.RecordMatches := by
  cases hr : s.run with
  | waitingForKey w => exact Host.Outcome.next.inj ((cycle_of_waiting hr).symm.trans hc) ▸ h
  | halted f => exact Host.Outcome.next.inj ((cycle_of_halted hr).symm.trans hc) ▸ h
  | running =>
    rcases cycle_running_cases r hr with ⟨k, e⟩ | ⟨w, i, u, -, -, -, c, e⟩
    · exact Host.Outcome.next.inj (e.symm.trans hc) ▸ takeFault_recordMatches _ k
    · have notHalted : u.isHalted = false := (countCycle_of_completed (s := { s with random := r }) hr c).2
      exact Host.Outcome.next.inj (e.symm.trans hc) ▸ recordMatches_of_not_halted notHalted

theorem tick_keeps_recordMatches {s : State} (h : s.RecordMatches) : s.tick.RecordMatches := by
  cases hs : s.isHalted with
  | true => exact (tick_of_halted hs).symm ▸ h
  | false => exact tick_of_not_halted hs ▸ h.congr rfl rfl rfl

theorem keyEvent_keeps_recordMatches {s : State} (id : KeyId) (pressed : Bool) (h : s.RecordMatches) :
    (s.keyEvent id pressed).RecordMatches := by
  rcases keyEvent_cases s id pressed with ⟨w, -, -, e⟩ | ⟨-, e⟩
  · exact e ▸ recordMatches_of_not_halted rfl
  · exact e ▸ h.congr rfl rfl rfl

theorem constructEvent_recordMatches {rom : List Byte} {s t : State} (h : constructEvent rom s = .next t) :
    t.RecordMatches :=
  recordMatches_of_not_halted (by simp [State.isHalted, constructEvent_run h])

theorem deliver_keeps_recordMatches {e : Event} {s t : State} (h : s.RecordMatches) (hd : deliver e s = .next t) :
    t.RecordMatches := by
  cases e with
  | cycle r => exact cycle_keeps_recordMatches h hd
  | tick => exact Host.Outcome.next.inj hd ▸ tick_keeps_recordMatches h
  | keyEvent id pressed => exact Host.Outcome.next.inj hd ▸ keyEvent_keeps_recordMatches id pressed h
  | frameAck => exact Host.Outcome.next.inj hd ▸ h.congr rfl rfl rfl
  | construct rom => exact constructEvent_recordMatches hd

/-! ## Every event is answered (R219) -/

theorem cycle_is_next (r : Byte) (s : State) : ∃ t, cycle r s = .next t := by
  cases hr : s.run with
  | waitingForKey w => exact ⟨s, cycle_of_waiting hr⟩
  | halted f => exact ⟨s, cycle_of_halted hr⟩
  | running =>
    rcases cycle_running_cases r hr with ⟨k, e⟩ | ⟨_, _, _, -, -, -, -, e⟩
    · exact ⟨_, e⟩
    · exact ⟨_, e⟩

/-- Every event but a `Construct` with an overlong ROM leads to a next state. -/
theorem deliver_is_next {e : Event} (s : State) (h : ∀ rom, e = .construct rom → rom.length ≤ romMax) :
    ∃ t, deliver e s = .next t := by
  cases e with
  | cycle r => exact cycle_is_next r s
  | construct rom => exact ⟨_, constructEvent_of_fits s (h rom rfl)⟩
  | tick | keyEvent | frameAck => exact ⟨_, rfl⟩

end Sys2Proof.Machine
end

section
/-! The statements about exceptions (60_exceptions.md). -/

namespace Sys2Proof.Machine

/-- Settles O12: taking the event touches none of the three fields the record speaks of, and every event keeps the
record in step or leaves Halted. -/
theorem stepKeepsTheFaultRecordInStep : Obligations.StepKeepsTheFaultRecordInStep := by
  intro s t h hs
  have taken : s.takeEvent.RecordMatches := h.congr (takeEvent_run s) (takeEvent_pc s) (takeEvent_cycles s)
  exact deliver_keeps_recordMatches taken hs

/-- Settles O14: cycles and ticks look at `run` first, a key event finds no wait to end, and `FrameAck` writes `dirty`
alone. -/
theorem haltedIsTerminal : Obligations.HaltedIsTerminal := by
  intro e s t f hs h notConstruct
  cases e with
  | cycle r =>
    obtain rfl := Host.Outcome.next.inj ((cycle_of_halted hs).symm.trans h)
    exact ⟨rfl, fun _ => rfl⟩
  | tick =>
    have unchanged : s.tick = s := tick_of_halted (by simp [State.isHalted, hs])
    obtain rfl : s = t := unchanged.symm.trans (Host.Outcome.next.inj h)
    exact ⟨rfl, fun _ => rfl⟩
  | keyEvent id pressed =>
    have flagOnly : s.keyEvent id pressed = s.setKey id pressed :=
      keyEvent_of_no_wait_or_release id (.inl (by simp [hs]))
    obtain rfl : s.setKey id pressed = t := flagOnly.symm.trans (Host.Outcome.next.inj h)
    exact ⟨rfl, by simp⟩
  | frameAck =>
    obtain rfl := Host.Outcome.next.inj h
    exact ⟨rfl, by simp⟩
  | construct rom => exact absurd rfl (notConstruct rom)

/-- Settles O7: the fetch faults past the end, and the two bytes of an illegal word are fetched but not decoded. -/
theorem fetchAndDispatchFaultsInOrder : Obligations.FetchAndDispatchFaultsInOrder := by
  refine fun r s hr => ⟨fun past => ?fetch, fun hi lo hhi hlo illegal => ?dispatch⟩
  case fetch => exact ⟨_, cycle_of_fetch_fault r hr (fetch_past_end past), rfl⟩
  case dispatch =>
    have refused : decodeWord (wordOfBytes hi lo) = .error (illegalRegion (wordOfBytes hi lo)) :=
      Laws.decodeWord_of_illegalWord illegal
    exact ⟨_, cycle_of_illegal r hr (fetch_of_bytes hhi hlo) refused, rfl⟩

/-- Settles O15: a step delivers the next event, and only the loader refuses one. -/
theorem stepStopsOnlyOnAnOverlongRom : Obligations.StepStopsOnlyOnAnOverlongRom := by
  refine fun s => ⟨fun fits => deliver_is_next s.takeEvent fits, fun rom next overlong => ?_⟩
  rw [step, next]
  exact constructEvent_of_overlong s.takeEvent overlong

end Sys2Proof.Machine
end

section
/-! SUPPORT. The machine `Construct` builds (70_reset_and_hazards.md R240, R242), beside its memory: what its flags, pixels
and registers read as, and that `State.reset` is such a machine. -/

namespace Sys2Proof.Machine

@[simp] theorem readV_construct (s : State) (rom : List Byte) (x : Reg) : (s.construct rom).readV x = 0 := by
  simp [State.readV, State.construct, State.reset]

@[simp] theorem pixel_construct (s : State) (rom : List Byte) (x : Fin 64) (y : Fin 32) :
    pixel (s.construct rom).fb x y = false :=
  pixel_blank x y

@[simp] theorem keyDown_construct (s : State) (rom : List Byte) (k : KeyId) : (s.construct rom).keyDown k = false := by
  simp [State.keyDown, State.construct, State.reset]

/-- With an empty ROM only what `Construct` keeps can differ from `State.reset` (log 15). -/
theorem construct_nil_eq_reset {s : State} (hcfg : s.cfg = Config.default) (hdraws : s.draws = 0)
    (hschedule : s.schedule = []) : s.construct [] = State.reset := by
  rw [State.construct, hcfg, hdraws, hschedule]
  rfl

end Sys2Proof.Machine
end

section
/-! The statements about reset (70_reset_and_hazards.md). -/

namespace Sys2Proof.Machine

/-- Settles O11: reset is the machine that `Construct` builds from an empty ROM, and it is not halted. -/
theorem resetMeetsTheMachineInvariant : Obligations.ResetMeetsTheMachineInvariant := by
  have constructed : State.reset.construct [] = State.reset := construct_nil_eq_reset rfl rfl rfl
  exact ⟨constructed ▸ construct_inv State.reset (rom := []) (Nat.zero_le _), recordMatches_of_not_halted rfl, rfl⟩

/-- Settles O20: a ROM that fits is answered with the constructed machine, whose every field is a reset value or kept. -/
theorem constructResetsEverythingElse : Obligations.ConstructResetsEverythingElse := by
  refine ⟨fun s rom fits => ?accepted, fun s rom overlong => constructEvent_of_overlong s overlong,
    fun s hcfg hdraws hschedule => ?empty⟩
  case accepted =>
    exact ⟨s.construct rom, constructEvent_of_fits s fits, readV_construct s rom, rfl, rfl, rfl, rfl, rfl, rfl,
      pixel_construct s rom, rfl, keyDown_construct s rom, rfl, rfl, rfl, rfl, rfl, rfl, rfl⟩
  case empty =>
    rw [← construct_nil_eq_reset hcfg hdraws hschedule]
    exact constructEvent_of_fits s (Nat.zero_le _)

end Sys2Proof.Machine
end
